-- ==== Sys2Proof/Word.lean ====
section
/-! DEFINITION. The value types of the block: Unsigned32 (00_scope.md R7), the message byte (R9) and the 68-bit
command word (30_encoding.md R60). Bit 0 is the least significant bit (R12), which is BitVec's own numbering. -/

namespace Sys2Proof

/-- Unsigned32: every value the block holds or computes (00_scope.md R7). -/
abbrev Word := BitVec 32

/-- One message byte, or one TABLE index (00_scope.md R8, R9). -/
abbrev Byte := BitVec 8

/-- One command as the host presents it, whole (30_encoding.md R60). -/
abbrev CommandWord := BitVec 68

end Sys2Proof
end

