-- ==== Sys2Proof/Syntax.lean ====
section
/-! DEFINITION. The commands of the block: one constructor for each row of spec/opcode_table.json, with the operands
the row's format gives it (30_encoding.md R61 to R63). -/

namespace Sys2Proof

/-- A command with its operands assembled (30_encoding.md R62): F_AB rows carry two whole words, F_A8 rows one byte,
F_N rows nothing. Every term is well-formed by its types; what can be ill-formed is a raw command word
(WellFormed.lean) or a line of assembly (Machine/Assembler.lean). -/
inductive Instr where
  /-- NOP (44_control.md R110). -/
  | nop
  /-- XOR a, b (40_bitops.md R80). -/
  | xor (a b : Word)
  /-- AND a, b (40_bitops.md R81). -/
  | and (a b : Word)
  /-- SHR a, n (40_bitops.md R82). -/
  | shr (a n : Word)
  /-- CRCINIT (42_checksum.md R93). -/
  | crcinit
  /-- CRCBYTE c (42_checksum.md R94). -/
  | crcbyte (c : Byte)
  /-- CRCREAD (42_checksum.md R95). -/
  | crcread
  /-- TREAD i (42_checksum.md R96). -/
  | tread (i : Byte)
  deriving DecidableEq, Repr

end Sys2Proof
end

