-- ==== Sys2Proof/WellFormed.lean ====
section
/-! DEFINITION. Which command words are commands: the match and mask rows of 30_encoding.md R64. The decoder
(Decode.lean) is written from R65's field tests instead, so the two readings of the encoding check each other. -/

namespace Sys2Proof

/-- One row of 30_encoding.md R64: a word selects the row when `and(W, mask) = match`. -/
structure Row where
  matchBits : CommandWord
  mask : CommandWord
  deriving DecidableEq, Repr

/-- The row of a command (30_encoding.md R64). -/
def Instr.row : Instr → Row
  | .nop       => ⟨0x00000000000000000#68, 0xFFFFFFFFFFFFFFFFF#68⟩
  | .xor _ _   => ⟨0x10000000000000000#68, 0xF0000000000000000#68⟩
  | .and _ _   => ⟨0x20000000000000000#68, 0xF0000000000000000#68⟩
  | .shr _ _   => ⟨0x30000000000000000#68, 0xF0000000000000000#68⟩
  | .crcinit   => ⟨0x40000000000000000#68, 0xFFFFFFFFFFFFFFFFF#68⟩
  | .crcbyte _ => ⟨0x50000000000000000#68, 0xFFFFFFF00FFFFFFFF#68⟩
  | .crcread   => ⟨0x60000000000000000#68, 0xFFFFFFFFFFFFFFFFF#68⟩
  | .tread _   => ⟨0x70000000000000000#68, 0xFFFFFFF00FFFFFFFF#68⟩

/-- The eight rows, in the order of 30_encoding.md R64. -/
def rows : List Row :=
  [Instr.nop.row, (Instr.xor 0 0).row, (Instr.and 0 0).row, (Instr.shr 0 0).row,
   Instr.crcinit.row, (Instr.crcbyte 0).row, Instr.crcread.row, (Instr.tread 0).row]

/-- Does a word select the row (30_encoding.md R64)? -/
def Row.selects (r : Row) (w : CommandWord) : Bool := (w &&& r.mask) == r.matchBits

/-- A well-formed command word: one that some row matches, that is, an assigned opcode whose must-be-zero bits are
all zero (30_encoding.md R61, R64, R65). -/
def wellFormedWord (w : CommandWord) : Bool := rows.any fun r => r.selects w

end Sys2Proof
end

