-- ==== Sys2Proof/Decode.lean ====
section
/-! DEFINITION. Decoding a 68-bit command word, total and rejecting by name (30_encoding.md R60 to R67), and after it
the encoder, written from the same field layout. -/

namespace Sys2Proof

/-- Why a command word is rejected (10_state.md R24; 60_exceptions.md R140, R141). -/
inductive RejectCode where
  /-- An opcode in 0x8 to 0xF (60_exceptions.md R140). -/
  | illegalOpcode
  /-- A non-zero must-be-zero operand bit (60_exceptions.md R141). -/
  | reservedOperand
  deriving DecidableEq, Repr

/-- The one outcome every word has (30_encoding.md R65). -/
inductive Decoded where
  | execute (i : Instr)
  | reject (code : RejectCode)
  deriving DecidableEq, Repr

/-- The three formats (30_encoding.md R61). -/
inductive Format where
  | fAB
  | fA8
  | fN
  deriving DecidableEq, Repr

/-- W[67:64] (30_encoding.md R60). -/
def opField (w : CommandWord) : BitVec 4 := w.extractLsb' 64 4

/-- W[63:32] (30_encoding.md R60). -/
def aField (w : CommandWord) : Word := w.extractLsb' 32 32

/-- W[31:0] (30_encoding.md R60). -/
def bField (w : CommandWord) : Word := w.extractLsb' 0 32

/-- A[7:0], the operand of F_A8 (30_encoding.md R62). -/
def lowByteOf (a : Word) : Byte := a.extractLsb' 0 8

/-- Are the format's must-be-zero bits all zero (30_encoding.md R61)? -/
def mustBeZeroClear (f : Format) (a b : Word) : Bool :=
  match f with
  | .fAB => true
  | .fA8 => a.extractLsb' 8 24 == 0#24 && b == 0#32
  | .fN => a == 0#32 && b == 0#32

/-- The operand check of 30_encoding.md R65, made after the opcode check (60_exceptions.md R145). -/
def checked (f : Format) (a b : Word) (i : Instr) : Decoded :=
  if mustBeZeroClear f a b then .execute i else .reject .reservedOperand

/-- The command an assigned opcode selects, with its operand check; `none` for the reserved opcodes 8 to 15
(30_encoding.md R63). -/
def selectCommand (op : Nat) (a b : Word) : Option Decoded :=
  match op with
  | 0 => some (checked .fN a b .nop)
  | 1 => some (checked .fAB a b (.xor a b))
  | 2 => some (checked .fAB a b (.and a b))
  | 3 => some (checked .fAB a b (.shr a b))
  | 4 => some (checked .fN a b .crcinit)
  | 5 => some (checked .fA8 a b (.crcbyte (lowByteOf a)))
  | 6 => some (checked .fN a b .crcread)
  | 7 => some (checked .fA8 a b (.tread (lowByteOf a)))
  | _ => none

/-- 30_encoding.md R65: the opcode first, then the must-be-zero bits, then the command. -/
def decode (w : CommandWord) : Decoded :=
  (selectCommand (opField w).toNat (aField w) (bField w)).getD (.reject .illegalOpcode)

/-- A word from its three fields (30_encoding.md R60). -/
def commandWord (op : BitVec 4) (a b : Word) : CommandWord := op ++ a ++ b

/-- The word of a command (30_encoding.md R60 to R63, R69). -/
def encode : Instr → CommandWord
  | .nop       => commandWord 0x0#4 0#32 0#32
  | .xor a b   => commandWord 0x1#4 a b
  | .and a b   => commandWord 0x2#4 a b
  | .shr a n   => commandWord 0x3#4 a n
  | .crcinit   => commandWord 0x4#4 0#32 0#32
  | .crcbyte c => commandWord 0x5#4 (c.setWidth 32) 0#32
  | .crcread   => commandWord 0x6#4 0#32 0#32
  | .tread i   => commandWord 0x7#4 (i.setWidth 32) 0#32

/-- The decoder on a word given as a number, bit 0 least significant, of which `nbits` bits are given and the rest are
zero. A number of more than 68 bits is no command word (30_encoding.md R67; log 16). -/
def decodeTableWord (nbits w : Nat) : Option Instr :=
  if w % 2 ^ nbits < 2 ^ 68 then
    match decode (BitVec.ofNat 68 (w % 2 ^ nbits)) with
    | .execute i => some i
    | .reject _ => none
  else none

end Sys2Proof
end

