-- ==== Sys2Proof/Machine/Flags.lean ====
section
/-! DEFINITION. STATUS, read and written by field (10_state.md R23, R24). No data operation sets a flag (R29): only
the init sequencer (READY) and a rejection (ERR, ECODE) write it. -/

namespace Sys2Proof.Machine

/-- READY, bit 0 (10_state.md R23). -/
def readyBit (status : Word) : Bool := status.getLsbD 0

/-- ERR, bit 1 (10_state.md R23). -/
def errBit (status : Word) : Bool := status.getLsbD 1

/-- ECODE, bits 7:4 (10_state.md R23). -/
def ecodeField (status : Word) : BitVec 4 := status.extractLsb' 4 4

/-- Bits 3:2 and 31:8, always 0 (10_state.md R23). -/
def reservedBits (status : Word) : Word := status &&& 0xFFFFFF0C#32

/-- The ECODE value of a rejection (10_state.md R24). -/
def ecodeOf : RejectCode → BitVec 4
  | .illegalOpcode => 1#4
  | .reservedOperand => 2#4

/-- STATUS.READY <- 1 (70_reset_and_hazards.md R162). -/
def setReady (status : Word) : Word := status ||| 0x00000001#32

/-- STATUS.ERR <- 1 (60_exceptions.md R142). -/
def setErr (status : Word) : Word := status ||| 0x00000002#32

/-- STATUS.ECODE <- e, the other bits kept (60_exceptions.md R142). -/
def setEcode (status : Word) (e : BitVec 4) : Word :=
  (status &&& 0xFFFFFF0F#32) ||| (e.setWidth 32 <<< 4)

/-- STATUS after a rejection: ERR set, and the code recorded if none was (60_exceptions.md R142). -/
def recordRejection (status : Word) (code : RejectCode) : Word :=
  if ecodeField status = 0#4 then setEcode (setErr status) (ecodeOf code) else setErr status

end Sys2Proof.Machine
end

