-- ==== Sys2Proof/Config.lean ====
section
/-! DEFINITION. What is fixed for the block and is no state (10_state.md R31), the parameters the spec leaves open
(00_scope.md R11), and the free values: constants with no body, so that nothing proved can depend on their value. -/

namespace Sys2Proof.Config

/-- The reflected CRC-32 polynomial, 3988292384 (00_scope.md R9, 10_state.md R31). -/
def polynomial : Word := 0xEDB88320#32

/-- The initial CRC value (00_scope.md R9, 10_state.md R31). -/
def crcInitial : Word := 0xFFFFFFFF#32

/-- The byte mask of the index computation (10_state.md R31, 42_checksum.md R94). -/
def byteMask : Word := 0xFF#32

/-- The 24-bit mask of the checksum loop (10_state.md R31, 42_checksum.md R94). -/
def mask24 : Word := 0xFFFFFF#32

/-- The spec's default of the open parameter HOST_ADD_WRAP (00_scope.md R11, 92 D17); the host's functions take the
parameter itself as an argument. -/
def hostAddWrapDefault : Bool := false

/-- INIT_LATENCY, open (00_scope.md R11, 70_reset_and_hazards.md R175): named here because the spec names it; no rule
and no definition of the model reads it (log 12). -/
opaque initLatency : Nat

/-- CMD_LATENCY[op], open (00_scope.md R11, 70_reset_and_hazards.md R175): as `initLatency`, by opcode (log 12). -/
opaque cmdLatency : BitVec 4 → Nat

/-- FREE VALUE. What TABLE entry `index` holds after reset number `epoch` and before the init sequencer writes it:
"Every TABLE entry becomes unspecified" (70_reset_and_hazards.md R160; 93 item 1; log 1). -/
opaque unbuiltEntry : (epoch : Nat) → (index : Nat) → Word

/-- FREE VALUE. CRC before the first reset (70_reset_and_hazards.md R161; log 9). -/
opaque powerUpCrc : Word

/-- FREE VALUE. RES before the first reset (70_reset_and_hazards.md R161; log 9). -/
opaque powerUpRes : Word

/-- FREE VALUE. STATUS before the first reset (70_reset_and_hazards.md R161; log 9). -/
opaque powerUpStatus : Word

/-- FREE VALUE. BIDX before the first reset (70_reset_and_hazards.md R161; log 9). -/
opaque powerUpBidx : BitVec 9

/-- FREE VALUE. TABLE entry `index` before the first reset (70_reset_and_hazards.md R161; log 9). -/
opaque powerUpEntry : (index : Nat) → Word

end Sys2Proof.Config
end

