-- ==== Sys2Proof/Machine/Operands.lean ====
section
/-! DEFINITION. The bit primitives and operand forms: xor, and, shr, zero extension, the shift count and the TABLE
index (00_scope.md R14; 30_encoding.md R62; 20_memory.md R41). Nothing is sign-extended, scaled or shifted (R62). -/

namespace Sys2Proof.Machine

/-- xor(a, b), bitwise over all 32 bits (00_scope.md R14, 40_bitops.md R80). -/
def bitXor (a b : Word) : Word := a ^^^ b

/-- and(a, b), bitwise over all 32 bits (00_scope.md R14, 40_bitops.md R81). -/
def bitAnd (a b : Word) : Word := a &&& b

/-- shr(a, n), the logical right shift by any count (00_scope.md R14, 40_bitops.md R82). -/
def shr (a : Word) (n : Nat) : Word := a >>> n

/-- zext_32 of a byte (00_scope.md R14). -/
def zext32 (c : Byte) : Word := c.setWidth 32

/-- SHR's count: B taken whole as an unsigned number (30_encoding.md R62). -/
def shiftCount (n : Word) : Nat := n.toNat

/-- CRCBYTE's index: and(xor(CRC, zext_32(c)), 0xFF), an 8-bit value (42_checksum.md R94, 20_memory.md R41). -/
def crcIndex (crc : Word) (c : Byte) : Byte :=
  lowByteOf (bitAnd (bitXor crc (zext32 c)) Config.byteMask)

/-- The init sequencer's index: BIDX[7:0] (20_memory.md R41, 70_reset_and_hazards.md R162). -/
def initIndex (bidx : BitVec 9) : Byte := bidx.extractLsb' 0 8

end Sys2Proof.Machine
end

