-- ==== Sys2Proof/Machine/State.lean ====
section
/-! DEFINITION. What the machine holds: the block's five state elements (10_state.md R21 to R26), its command
interface and reset input, and the host agent's future as plain data; the state right after reset (10_state.md R33)
and before the first one (70_reset_and_hazards.md R161). -/

namespace Sys2Proof.Machine

/-- What the host does, one entry for each step of the machine (10_state.md R20a; 70_reset_and_hazards.md R160). -/
inductive HostInput where
  /-- The host does nothing new: what it presented stays presented. -/
  | idle
  /-- The host presents a command word (30_encoding.md R60). -/
  | present (w : CommandWord)
  /-- The reset input is asserted (70_reset_and_hazards.md R160). -/
  | assertReset
  /-- The reset input is released (70_reset_and_hazards.md R160). -/
  | releaseReset
  deriving DecidableEq, Repr

structure State where
  /-- CRC, the running checksum (10_state.md R21). -/
  crc : Word
  /-- RES, the result register and output (10_state.md R22). -/
  res : Word
  /-- STATUS, the status register and output (10_state.md R23); its fields are read in Flags.lean. -/
  status : Word
  /-- TABLE, 256 entries of 32 bits (10_state.md R25). -/
  table : Vector Word 256
  /-- BIDX, the hidden init counter (10_state.md R26). -/
  bidx : BitVec 9
  /-- The command word presented and not yet accepted, if any (70_reset_and_hazards.md R170). -/
  presented : Option CommandWord
  /-- Is the reset input asserted (70_reset_and_hazards.md R160)? -/
  resetLine : Bool
  /-- The model's own: what the host does from now on (10_state.md R20a; log 3). It is the host's future and no queue
  of the block, which has none (10_state.md R32). -/
  script : List HostInput
  /-- The model's own: how many resets there have been, the counter that makes the unspecified TABLE entries of each
  reset a fresh free value (log 2). -/
  epoch : Nat
  deriving DecidableEq, Repr

/-- Why the machine would stop with a fault. It never does: "No other error exists", every operation is total and a
rejected word is a next state (60_exceptions.md R142, R143; log 17). So there is no constructor. -/
inductive Fault where
  deriving DecidableEq, Repr

/-- Why the machine gives no meaning. -/
inductive Refusal where
  /-- Raised by exec's arm of an instruction that has no meaning yet; no arm raises it now. Safe: nothing is claimed
  of what the hardware does there. -/
  | notModelled (mnemonic : String)
  deriving DecidableEq, Repr

/-- TABLE after reset number `epoch`, before any init step: every entry a free value (10_state.md R25, R33; log 1). -/
def unbuiltTable (epoch : Nat) : Vector Word 256 := Vector.ofFn fun i => Config.unbuiltEntry epoch i.val

/-- The state right after reset is released (10_state.md R33; 70_reset_and_hazards.md R160). Nothing is presented,
since reset discards a held command, and the host's future is empty (log 3, log 4, log 10). -/
def State.reset : State where
  crc := 0xFFFFFFFF#32
  res := 0x00000000#32
  status := 0x00000000#32
  table := unbuiltTable 0
  bidx := 0#9
  presented := none
  resetLine := false
  script := []
  epoch := 0

/-- Before the first reset after power is applied every element is unspecified: a free value each
(70_reset_and_hazards.md R161; log 9). Nothing is presented and reset is released. -/
def State.powerUp : State where
  crc := Config.powerUpCrc
  res := Config.powerUpRes
  status := Config.powerUpStatus
  table := Vector.ofFn fun i => Config.powerUpEntry i.val
  bidx := Config.powerUpBidx
  presented := none
  resetLine := false
  script := []
  epoch := 0

end Sys2Proof.Machine
end

