-- ==== Sys2Proof/Machine/Ops.lean ====
section
/-! DEFINITION. The named operations over the state: register and TABLE access, the computation of a TABLE entry
(42_checksum.md R90), the CRC update (R94), the init sequencer's step (70_reset_and_hazards.md R162), rejection (the
block's one exception, 60_exceptions.md R142; there is no return from it, R147) and reset (70_reset_and_hazards.md R160). -/

namespace Sys2Proof.Machine

def State.writeCrc (s : State) (v : Word) : State := { s with crc := v }

def State.writeRes (s : State) (v : Word) : State := { s with res := v }

def State.writeStatus (s : State) (v : Word) : State := { s with status := v }

def State.writeTable (s : State) (t : Vector Word 256) : State := { s with table := t }

def State.writeBidx (s : State) (v : BitVec 9) : State := { s with bidx := v }

def State.setPresented (s : State) (p : Option CommandWord) : State := { s with presented := p }

def State.setResetLine (s : State) (b : Bool) : State := { s with resetLine := b }

def State.setScript (s : State) (l : List HostInput) : State := { s with script := l }

def State.setEpoch (s : State) (n : Nat) : State := { s with epoch := n }

/-- The RES output, readable at any time with no side effect (10_state.md R22, 20_memory.md R44). -/
def State.resOutput (s : State) : Word := s.res

/-- The STATUS output, readable at any time with no side effect (10_state.md R23, 20_memory.md R44). -/
def State.statusOutput (s : State) : Word := s.status

/-- STATUS.READY = 1, so that commands are accepted (10_state.md R23, 70_reset_and_hazards.md R170). -/
def State.ready (s : State) : Bool := readyBit s.status

/-- One whole entry; every 8-bit index is in range (20_memory.md R41, R44). -/
def readEntry (t : Vector Word 256) (i : Byte) : Word := t[i.toNat]'(i.isLt)

/-- One entry written, the others kept (20_memory.md R41). -/
def writeEntry (t : Vector Word 256) (i : Byte) (v : Word) : Vector Word 256 := t.set i.toNat v i.isLt

/-- `f` applied `n` times: the spec's "repeat n times" (42_checksum.md R90). -/
def repeatTimes (f : Word → Word) : Nat → Word → Word
  | 0, h => h
  | n + 1, h => repeatTimes f n (f h)

/-- The loop body of 42_checksum.md R90; "hash is odd" is bit 0 (00_scope.md R18). -/
def hashStep (hash : Word) : Word :=
  if bitAnd hash 1#32 = 1#32 then bitXor (shr hash 1) Config.polynomial else shr hash 1

/-- TableEntry(i) (42_checksum.md R90). -/
def tableEntry (i : Byte) : Word := repeatTimes hashStep 8 (zext32 i)

/-- The whole table, TableEntry(0) to TableEntry(255) (42_checksum.md R90). -/
def builtTable : Vector Word 256 :=
  ⟨((List.range 256).map fun i => tableEntry (BitVec.ofNat 8 i)).toArray, by simp⟩

/-- CRC after one message byte, with the table as it stands (42_checksum.md R94). -/
def crcUpdate (t : Vector Word 256) (crc : Word) (c : Byte) : Word :=
  bitXor (bitAnd (shr crc 8) Config.mask24) (readEntry t (crcIndex crc c))

/-- One step of the init sequencer, enabled while BIDX < 256 (70_reset_and_hazards.md R162). -/
def initStep (s : State) : State :=
  let next := s.bidx + 1#9
  { s with
    table := writeEntry s.table (initIndex s.bidx) (tableEntry (initIndex s.bidx))
    bidx := next
    status := if next = 256#9 then setReady s.status else s.status }

/-- The collapsed initialisation: every remaining init step at once (70_reset_and_hazards.md R164). -/
def initCollapsed (s : State) : State :=
  { s with table := builtTable, bidx := 256#9, status := setReady s.status }

/-- A rejection: STATUS records it and nothing else changes (60_exceptions.md R142, R146). -/
def reject (code : RejectCode) (s : State) : State := s.writeStatus (recordRejection s.status code)

/-- The reset input asserted: every element takes its reset value, TABLE becomes unspecified (a fresh free value for
each entry, log 1), and a held command is discarded (70_reset_and_hazards.md R160). What the host does later is its
own. -/
def assertReset (s : State) : State :=
  { State.reset with
    table := unbuiltTable (s.epoch + 1)
    resetLine := true
    script := s.script
    epoch := s.epoch + 1 }

/-- The reset input released, after which the init sequencer starts (70_reset_and_hazards.md R160). -/
def releaseReset (s : State) : State := s.setResetLine false

end Sys2Proof.Machine
end

