-- ==== Sys2Proof/Machine/BitOps.lean ====
section
/-! DEFINITION. The BitOps family: XOR, AND, SHR (40_bitops.md). Each writes RES and nothing else. -/

namespace Sys2Proof.Machine

/-- XOR: RES <- xor(A, B) (40_bitops.md R80). -/
def execXor (a b : Word) (s : State) : Host.Outcome State Fault Refusal :=
  .next (s.writeRes (bitXor a b))

/-- AND: RES <- and(A, B) (40_bitops.md R81). -/
def execAnd (a b : Word) (s : State) : Host.Outcome State Fault Refusal :=
  .next (s.writeRes (bitAnd a b))

/-- SHR: RES <- floor(A / 2^B) (40_bitops.md R82). -/
def execShr (a n : Word) (s : State) : Host.Outcome State Fault Refusal :=
  .next (s.writeRes (shr a (shiftCount n)))

end Sys2Proof.Machine
end

