-- ==== Sys2Proof/Machine/Checksum.lean ====
section
/-! DEFINITION. The ChecksumEngine family: CRCINIT, CRCBYTE, CRCREAD, TREAD (42_checksum.md). -/

namespace Sys2Proof.Machine

/-- CRCINIT: CRC <- 0xFFFFFFFF (42_checksum.md R93). -/
def execCrcinit (s : State) : Host.Outcome State Fault Refusal :=
  .next (s.writeCrc Config.crcInitial)

/-- CRCBYTE: one iteration of the checksum loop (42_checksum.md R94). -/
def execCrcbyte (c : Byte) (s : State) : Host.Outcome State Fault Refusal :=
  .next (s.writeCrc (crcUpdate s.table s.crc c))

/-- CRCREAD: RES <- CRC, with no final inversion (42_checksum.md R95, R100). -/
def execCrcread (s : State) : Host.Outcome State Fault Refusal :=
  .next (s.writeRes s.crc)

/-- TREAD: RES <- TABLE[i] (42_checksum.md R96). -/
def execTread (i : Byte) (s : State) : Host.Outcome State Fault Refusal :=
  .next (s.writeRes (readEntry s.table i))

end Sys2Proof.Machine
end

