-- ==== Sys2Proof/Machine/Control.lean ====
section
/-! DEFINITION. The Control family: NOP, the only control command there is (44_control.md R110 to R112). -/

namespace Sys2Proof.Machine

/-- NOP: no state changes (44_control.md R110). -/
def execNop (s : State) : Host.Outcome State Fault Refusal := .next s

end Sys2Proof.Machine
end

