-- ==== Sys2Proof/Machine/Dispatch.lean ====
section
/-! DEFINITION. What an accepted command does, one arm for each constructor of Instr. -/

namespace Sys2Proof.Machine

def exec (i : Instr) (s : State) : Host.Outcome State Fault Refusal :=
  match i with
  | .nop => Sys2Proof.Machine.execNop s
  | .xor a b => Sys2Proof.Machine.execXor a b s
  | .and a b => Sys2Proof.Machine.execAnd a b s
  | .shr a n => Sys2Proof.Machine.execShr a n s
  | .crcinit => Sys2Proof.Machine.execCrcinit s
  | .crcbyte c => Sys2Proof.Machine.execCrcbyte c s
  | .crcread => Sys2Proof.Machine.execCrcread s
  | .tread k => Sys2Proof.Machine.execTread k s

end Sys2Proof.Machine
end

