-- ==== Sys2Proof/Machine/Interface.lean ====
section
/-! DEFINITION. How the machine moves: the reset input, the host presenting a word, the initialisation hold, and the
acceptance of the presented word (60_exceptions.md R145; 70_reset_and_hazards.md R160 to R170). This is where the
block's "fetch" stands: it has no pc and takes the word the host presents (10_state.md R28). -/

namespace Sys2Proof.Machine

/-- An accepted word is decoded and executed, or rejected (30_encoding.md R65; 60_exceptions.md R142). -/
def acceptWord (w : CommandWord) (s : State) : Host.Outcome State Fault Refusal :=
  match decode w with
  | .execute i => exec i s
  | .reject code => .next (reject code s)

/-- READY = 1 and a presented word: the word is consumed and takes its whole effect (20_memory.md R47). With nothing
presented the block waits (70_reset_and_hazards.md R165). -/
def acceptPresented (s : State) : Host.Outcome State Fault Refusal :=
  match s.presented with
  | none => .next s
  | some w => acceptWord w (s.setPresented none)

/-- The block's own step. While reset is asserted it takes none (70_reset_and_hazards.md R160); while BIDX < 256 the
init sequencer's is enabled (R162) and, READY being 0, a presented word is held (R170); then words are accepted. -/
def blockStep (s : State) : Host.Outcome State Fault Refusal :=
  if s.resetLine then .next s
  else if s.bidx.toNat < 256 then .next (initStep s)
  else if s.ready then acceptPresented s
  else .next s

/-- The host has a word to present. While an earlier one is held the host waits (92 D29; log 5); while reset is
asserted the word is discarded (70_reset_and_hazards.md R160; log 6). -/
def hostPresents (w : CommandWord) (rest : List HostInput) (s : State) : Host.Outcome State Fault Refusal :=
  if s.resetLine then .next (s.setScript rest)
  else if s.presented.isSome then blockStep s
  else blockStep ((s.setScript rest).setPresented (some w))

/-- The host releases the reset input: the block's first step comes after it (70_reset_and_hazards.md R160). Where the
input was released already nothing happens at it, and the block takes its step as in any other (log 7). -/
def hostReleases (rest : List HostInput) (s : State) : Host.Outcome State Fault Refusal :=
  if s.resetLine then .next (releaseReset (s.setScript rest)) else blockStep (s.setScript rest)

/-- One step of the machine: reset takes precedence (60_exceptions.md R145), then the host's input, then the block. -/
def takeStep (s : State) : Host.Outcome State Fault Refusal :=
  match s.script with
  | [] => blockStep s
  | .idle :: rest => blockStep (s.setScript rest)
  | .present w :: rest => hostPresents w rest s
  | .assertReset :: rest => .next (assertReset (s.setScript rest))
  | .releaseReset :: rest => hostReleases rest s

/-- Are commands accepted now: reset released, the table complete, READY = 1 (70_reset_and_hazards.md R170)? -/
def State.accepting (s : State) : Bool := !s.resetLine && decide (256 ≤ s.bidx.toNat) && s.ready

/-- The host's very next input presents `w` to a block that accepts it: where commands are not accepted yet, the
initialisation is done first (70_reset_and_hazards.md R164; log 11). -/
def presentNext (s : State) (w : CommandWord) : State :=
  let s' := if s.accepting then s else initCollapsed (releaseReset s)
  (s'.setPresented none).setScript (.present w :: s'.script)

end Sys2Proof.Machine
end

