-- ==== Sys2Proof/Machine/Step.lean ====
section
/-! DEFINITION. The machine's one step, and how an instruction is placed where the next step takes it. -/

namespace Sys2Proof.Machine

/-- One step of the machine (10_state.md R20; 60_exceptions.md R145). -/
def step (s : State) : Host.Outcome State Fault Refusal := takeStep s

/-- The command word `w` (its low `nbits` bits, zero above) placed where the next step takes its command: the host's
next input presents it to a block that accepts commands (log 11, log 16). -/
def State.withFetchWord (s : State) (nbits w : Nat) : State := presentNext s (BitVec.ofNat 68 (w % 2 ^ nbits))

end Sys2Proof.Machine
end

