-- ==== Sys2Proof/Machine/Assembler.lean ====
section
/-! DEFINITION. The spec's assembly syntax (30_encoding.md R69) and pseudo-instructions (R70), as data and as text. The
assembler is no part of the block; an assembly error is `none` and forms no command (93 item 14). -/

namespace Sys2Proof.Machine

/-- One line of assembly, its literals not yet checked: the eight mnemonics (30_encoding.md R69) and the four
pseudo-instructions (R70). -/
inductive AsmLine where
  | nop
  | xor (a b : Nat)
  | and (a b : Nat)
  | shr (a n : Nat)
  | crcinit
  | crcbyte (c : Nat)
  | crcread
  | tread (i : Nat)
  | li (v : Nat)
  | clrres
  | crcstr (s : List Char)
  | checksum (s : List Char)
  deriving DecidableEq, Repr

/-- Is every literal in its range, and every character of a string one byte (30_encoding.md R69, R70)? -/
def AsmLine.wellFormed : AsmLine → Bool
  | .nop | .crcinit | .crcread | .clrres => true
  | .xor a b | .and a b | .shr a b => decide (a < 2 ^ 32) && decide (b < 2 ^ 32)
  | .crcbyte v | .tread v => decide (v < 2 ^ 8)
  | .li v => decide (v < 2 ^ 32)
  | .crcstr s | .checksum s => s.all fun c => decide (c.toNat < 2 ^ 8)

/-- A literal in [0, 2^32 - 1] (30_encoding.md R69). -/
def literal32 (v : Nat) : Option Word := if v < 2 ^ 32 then some (BitVec.ofNat 32 v) else none

/-- A literal in [0, 255] (30_encoding.md R69). -/
def literal8 (v : Nat) : Option Byte := if v < 2 ^ 8 then some (BitVec.ofNat 8 v) else none

/-- An F_AB line from its two literals (30_encoding.md R69). -/
def assembleAB (ctor : Word → Word → Instr) (a b : Nat) : Option (List Instr) :=
  match literal32 a, literal32 b with
  | some x, some y => some [ctor x y]
  | _, _ => none

/-- An F_A8 line from its literal (30_encoding.md R69). -/
def assembleA8 (ctor : Byte → Instr) (v : Nat) : Option (List Instr) := (literal8 v).map fun x => [ctor x]

/-- CRCSTR: one CRCBYTE a character, in order; a code above 255 is an assembly error (30_encoding.md R70). -/
def assembleString : List Char → Option (List Instr)
  | [] => some []
  | c :: cs =>
    match literal8 c.toNat, assembleString cs with
    | some x, some rest => some (.crcbyte x :: rest)
    | _, _ => none

/-- The commands of a line, or an assembly error (30_encoding.md R69, R70). -/
def assemble : AsmLine → Option (List Instr)
  | .nop => some [.nop]
  | .xor a b => assembleAB .xor a b
  | .and a b => assembleAB .and a b
  | .shr a n => assembleAB .shr a n
  | .crcinit => some [.crcinit]
  | .crcbyte c => assembleA8 .crcbyte c
  | .crcread => some [.crcread]
  | .tread i => assembleA8 .tread i
  | .li v => assembleAB .xor v 0
  | .clrres => assembleAB .xor 0 0
  | .crcstr s => assembleString s
  | .checksum s => (assembleString s).map fun body => .crcinit :: (body ++ [.crcread])

/-- A piece of a line of text (30_encoding.md R69; log 15). -/
inductive Token where
  | bare (cs : List Char)
  | quoted (c : Char)
  | string (cs : List Char)
  | comma
  deriving DecidableEq, Repr

/-- What the reader of a line is in the middle of. -/
inductive LexMode where
  | between
  | inBare (reversed : List Char)
  | inString (reversed : List Char)
  | inQuote (c : Option Char)
  deriving DecidableEq, Repr

/-- The double quote of 30_encoding.md R70's strings. -/
def doubleQuote : Char := Char.ofNat 34

/-- The single quote of 30_encoding.md R69's characters. -/
def singleQuote : Char := Char.ofNat 39

/-- Space and tab separate (log 15). -/
def isBlank (c : Char) : Bool := c == ' ' || c == '\t'

/-- A line as tokens; a comment starts with a semicolon outside quotes and runs to the end (30_encoding.md R69);
`none` where a quote is not closed, and where one opens directly after a word with no blank or comma between, as in
CRCBYTE'5' or CRCSTR"0": the spec is silent on both, DESIGN CHOICE (log 15). -/
def lex : LexMode → List Char → Option (List Token)
  | .between, [] => some []
  | .inBare acc, [] => some [.bare acc.reverse]
  | .inString _, [] => none
  | .inQuote _, [] => none
  | .between, c :: cs =>
    if c = ';' then some []
    else if isBlank c then lex .between cs
    else if c = ',' then (lex .between cs).map (.comma :: ·)
    else if c = doubleQuote then lex (.inString []) cs
    else if c = singleQuote then lex (.inQuote none) cs
    else lex (.inBare [c]) cs
  | .inBare acc, c :: cs =>
    if c = ';' then some [.bare acc.reverse]
    else if isBlank c then (lex .between cs).map (.bare acc.reverse :: ·)
    else if c = ',' then (lex .between cs).map fun ts => .bare acc.reverse :: .comma :: ts
    else if c = doubleQuote ∨ c = singleQuote then none
    else lex (.inBare (c :: acc)) cs
  | .inString acc, c :: cs =>
    if c = doubleQuote then (lex .between cs).map (.string acc.reverse :: ·)
    else lex (.inString (c :: acc)) cs
  | .inQuote none, c :: cs => lex (.inQuote (some c)) cs
  | .inQuote (some q), c :: cs =>
    if c = singleQuote then (lex .between cs).map (.quoted q :: ·) else none

/-- The value of one digit in a base of at most 16 (log 15: either letter case). -/
def digitValue (base : Nat) (c : Char) : Option Nat :=
  let n := c.toNat
  let v := if 48 ≤ n ∧ n ≤ 57 then n - 48
    else if 65 ≤ n ∧ n ≤ 70 then n - 55
    else if 97 ≤ n ∧ n ≤ 102 then n - 87
    else base
  if v < base then some v else none

/-- Digits read most significant first onto `acc`. -/
def digitsValue (base acc : Nat) : List Char → Option Nat
  | [] => some acc
  | c :: cs =>
    match digitValue base c with
    | some d => digitsValue base (base * acc + d) cs
    | none => none

/-- A decimal literal, or a hexadecimal one after 0x (30_encoding.md R69). -/
def numberLiteral : List Char → Option Nat
  | [] => none
  | '0' :: 'x' :: ds => if ds = [] then none else digitsValue 16 0 ds
  | ds => digitsValue 10 0 ds

/-- An operand: a number, or a quoted character standing for its code (30_encoding.md R69), which is one byte (log 15). -/
def operandValue : Token → Option Nat
  | .bare cs => numberLiteral cs
  | .quoted c => if c.toNat < 2 ^ 8 then some c.toNat else none
  | .string _ => none
  | .comma => none

/-- A line with two operands. -/
def twoOperands (line : Nat → Nat → AsmLine) (a b : Token) : Option AsmLine :=
  match operandValue a, operandValue b with
  | some x, some y => some (line x y)
  | _, _ => none

/-- A line with one operand. -/
def oneOperand (line : Nat → AsmLine) (a : Token) : Option AsmLine := (operandValue a).map line

/-- Mnemonic, then operands separated by commas (30_encoding.md R69, R70); any other sequence of tokens is an assembly
error (log 15). -/
def parseTokens : List Token → Option AsmLine
  | [.bare m] =>
    if m = ['N', 'O', 'P'] then some .nop
    else if m = ['C', 'R', 'C', 'I', 'N', 'I', 'T'] then some .crcinit
    else if m = ['C', 'R', 'C', 'R', 'E', 'A', 'D'] then some .crcread
    else if m = ['C', 'L', 'R', 'R', 'E', 'S'] then some .clrres
    else none
  | [.bare m, .string cs] =>
    if m = ['C', 'R', 'C', 'S', 'T', 'R'] then some (.crcstr cs)
    else if m = ['C', 'H', 'E', 'C', 'K', 'S', 'U', 'M'] then some (.checksum cs)
    else none
  | [.bare m, a] =>
    if m = ['C', 'R', 'C', 'B', 'Y', 'T', 'E'] then oneOperand .crcbyte a
    else if m = ['T', 'R', 'E', 'A', 'D'] then oneOperand .tread a
    else if m = ['L', 'I'] then oneOperand .li a
    else none
  | [.bare m, a, .comma, b] =>
    if m = ['X', 'O', 'R'] then twoOperands .xor a b
    else if m = ['A', 'N', 'D'] then twoOperands .and a b
    else if m = ['S', 'H', 'R'] then twoOperands .shr a b
    else none
  | _ => none

/-- The words of one line of text: none of a line that holds no command (log 15), the expansion of one that does, an
assembly error (`none`) otherwise (30_encoding.md R69, R70). -/
def assembleText (line : List Char) : Option (List CommandWord) :=
  match lex .between line with
  | none => none
  | some [] => some []
  | some ts => ((parseTokens ts).bind assemble).map fun is => is.map encode

end Sys2Proof.Machine
end

