-- ==== Sys2Proof/Machine/Message.lean ====
section
/-! DEFINITION. Messages: the checksum of a byte string and the commands that compute it (42_checksum.md R97 to R99;
48_host_composition.md R129). -/

namespace Sys2Proof.Machine

/-- One iteration of 42_checksum.md R97's loop, on TableEntry itself. -/
def checksumStep (crc : Word) (c : Byte) : Word :=
  bitXor (shr crc 8) (tableEntry (crcIndex crc c))

/-- Checksum(s) (42_checksum.md R97). -/
def checksum (message : List Byte) : Word := message.foldl checksumStep Config.crcInitial

/-- The commands of one message: CRCINIT, one CRCBYTE a byte in order, CRCREAD (42_checksum.md R97). -/
def messageCommands (message : List Byte) : List Instr :=
  .crcinit :: (message.map .crcbyte ++ [.crcread])

/-- The host presenting commands one after another (48_host_composition.md R129). -/
def presentAll (commands : List Instr) : List HostInput := commands.map fun i => .present (encode i)

end Sys2Proof.Machine
end

