-- ==== Sys2Proof/Machine/HostSide.lean ====
section
/-! DEFINITION. The host's own functions, beside the block and no part of its state: preconditions, request code,
final transform, formatting, and what the host sends and reads (48_host_composition.md R120 to R129). Its numbers are
unbounded integers (00_scope.md R15). -/

namespace Sys2Proof.Machine

/-- Is the character an ASCII digit (48_host_composition.md R121)? -/
def isAsciiDigit (c : Char) : Bool := decide (48 ≤ c.toNat) && decide (c.toNat ≤ 57)

/-- The character of the last decimal digit of a number (93 section 2 item 2: '0' to '9' are 0x30 to 0x39). -/
def digitChar (n : Nat) : Char := Char.ofNat (48 + n % 10)

/-- A number as two decimal digits, zero-padded (48_host_composition.md R122). -/
def twoDigits (n : Nat) : List Char := [digitChar (n / 10), digitChar n]

/-- A number as exactly five decimal digits, left-padded with zeros (48_host_composition.md R126). -/
def fiveDigits (n : Nat) : List Char :=
  [digitChar (n / 10000), digitChar (n / 1000), digitChar (n / 100), digitChar (n / 10), digitChar n]

/-- The host's preconditions; nothing requires the day to exist in its month (48_host_composition.md R121, 92 D30). -/
def hostPreconditions (month day : Int) (identifier : List Char) : Bool :=
  decide (1 ≤ month) && decide (month ≤ 12) && decide (1 ≤ day) && decide (day ≤ 31) &&
    decide (identifier.length = 8) && identifier.all isAsciiDigit

/-- RequestCode: month, day, the last four characters of the identifier (48_host_composition.md R122). -/
def requestCode (month day : Int) (identifier : List Char) : List Char :=
  twoDigits month.toNat ++ twoDigits day.toNat ++ identifier.drop (identifier.length - 4)

/-- Codepoint(c), the byte of a character (00_scope.md R18). -/
def codepoint (c : Char) : Byte := BitVec.ofNat 8 c.toNat

/-- Response: the final transform, its sum exact, or reduced modulo 2^32 when the open parameter HOST_ADD_WRAP is true
(48_host_composition.md R124, R125; log 14). -/
def response (hostAddWrap : Bool) (checksum : Word) : Nat :=
  let sum := (bitXor checksum 0xAAAA#32).toNat + 5313
  (if hostAddWrap then sum % 2 ^ 32 else sum) % 100000

/-- ResultCode of a checksum (48_host_composition.md R126). -/
def resultCode (hostAddWrap : Bool) (checksum : Word) : List Char := fiveDigits (response hostAddWrap checksum)

/-- computeResetCode: no result when a precondition fails (48_host_composition.md R123, R127). -/
def computeResetCode (hostAddWrap : Bool) (month day : Int) (identifier : List Char) : Option (List Char) :=
  if hostPreconditions month day identifier then
    some (resultCode hostAddWrap (checksum ((requestCode month day identifier).map codepoint)))
  else none

/-- What the host presents for one result: the commands of the request code's message, or no command at all when a
precondition fails (48_host_composition.md R123, R127, R129). -/
def hostSession (month day : Int) (identifier : List Char) : List HostInput :=
  if hostPreconditions month day identifier then
    presentAll (messageCommands ((requestCode month day identifier).map codepoint))
  else []

/-- What the host makes of RES: with STATUS.ERR = 1 it discards the result unless it can show which command was
rejected (48_host_composition.md R129). -/
def hostReadResult (hostAddWrap canShowRejected : Bool) (s : State) : Option (List Char) :=
  if errBit s.statusOutput && !canShowRejected then none else some (resultCode hostAddWrap s.resOutput)

end Sys2Proof.Machine
end

