-- ==== Sys2Proof/Safety.lean ====
section
/-! DEFINITION. The terms claims use: the invariant of every run, a block that accepts commands, runs without reset,
and the bit-serial reading of a reflected CRC. -/

namespace Sys2Proof.Machine

/-- What holds in every state a run from reset reaches: the field rules of STATUS (10_state.md R23, R24), BIDX in
[0, 256] and READY exactly when it is 256 (R26), and every entry the init sequencer has passed built (R25). -/
structure State.Inv (s : State) : Prop where
  reserved_zero : reservedBits s.status = 0#32
  err_iff : errBit s.status = false ↔ ecodeField s.status = 0#4
  ecode_legal : (ecodeField s.status).toNat ≤ 2
  bidx_le : s.bidx.toNat ≤ 256
  ready_iff : s.ready = true ↔ s.bidx.toNat = 256
  built : ∀ i : Byte, i.toNat < s.bidx.toNat → readEntry s.table i = tableEntry i

/-- The table is complete (42_checksum.md R90; 70_reset_and_hazards.md R163). -/
def State.TableBuilt (s : State) : Prop := ∀ i : Byte, readEntry s.table i = tableEntry i

/-- The host asserts no reset in what it does from now on. -/
def NoReset (script : List HostInput) : Prop := HostInput.assertReset ∉ script

/-- The interface fields and the host's future are as they were. -/
def SameInterface (s t : State) : Prop :=
  t.presented = s.presented ∧ t.resetLine = s.resetLine ∧ t.script = s.script ∧ t.epoch = s.epoch

/-- Everything but RES is as it was. -/
def OnlyResWritten (s t : State) : Prop :=
  t.crc = s.crc ∧ t.status = s.status ∧ t.table = s.table ∧ t.bidx = s.bidx ∧ SameInterface s t

/-- Everything but CRC is as it was. -/
def OnlyCrcWritten (s t : State) : Prop :=
  t.res = s.res ∧ t.status = s.status ∧ t.table = s.table ∧ t.bidx = s.bidx ∧ SameInterface s t

/-- Everything but STATUS is as it was. -/
def OnlyStatusWritten (s t : State) : Prop :=
  t.crc = s.crc ∧ t.res = s.res ∧ t.table = s.table ∧ t.bidx = s.bidx ∧ SameInterface s t

/-- The word is rejected for its must-be-zero bits: accepting it sets ERR, leaves READY as it was and writes nothing
but STATUS (60_exceptions.md R141, R142). -/
def RejectsReserved (w : CommandWord) (s : State) : Prop :=
  decode w = .reject .reservedOperand ∧
    ∃ t, acceptWord w s = .next t ∧ errBit t.status = true ∧ t.ready = s.ready ∧ OnlyStatusWritten s t

/-- The word the next step accepts, if it accepts one: the one held, else the one the host presents in that step; none
where reset is asserted in that step or commands are not accepted (60_exceptions.md R145). -/
def wordAcceptedNext (s : State) : Option CommandWord :=
  if s.accepting then
    match s.presented, s.script with
    | _, .assertReset :: _ => none
    | some w, _ => some w
    | none, .present w :: _ => some w
    | none, _ => none
  else none

/-- What an accepted word leaves, on the state it is accepted in: the command's effect or the rejection's
(20_memory.md R47, 60_exceptions.md R142). -/
def afterWord (w : CommandWord) (s : State) : State :=
  match acceptWord w s with
  | .next t => t
  | .fault _ => s
  | .refused _ => s

/-- A word that writes CRC: CRCINIT or CRCBYTE (10_state.md R21). -/
def writesCrc (w : CommandWord) : Bool :=
  match decode w with
  | .execute .crcinit => true
  | .execute (.crcbyte _) => true
  | _ => false

/-- One bit of a message into a reflected CRC: the least significant bit of the register and the message bit decide
the polynomial (00_scope.md R17, "processed least-significant bit first"; log 18). -/
def bitSerialStep (crc : Word) (messageBit : Bool) : Word :=
  if crc.getLsbD 0 ^^ messageBit then crc >>> 1 ^^^ 0xEDB88320#32 else crc >>> 1

/-- The bits of a message in the order a reflected CRC takes them: byte after byte, bit 0 first. -/
def messageBits (message : List Byte) : List Bool :=
  message.flatMap fun c => (List.range 8).map fun k => c.getLsbD k

/-- The CRC computed bit by bit, with no table (42_checksum.md R98; log 18). -/
def bitSerialChecksum (message : List Byte) : Word := (messageBits message).foldl bitSerialStep 0xFFFFFFFF#32

end Sys2Proof.Machine
end

