-- ==== Sys2Proof/Certificates/Slice0/Obligations.lean ====
section
/-! DEFINITION. The statements for the provers. Each docstring names the rule of spec/ it formalises. -/

open Sys2Proof Sys2Proof.Machine

/-! ## Encoding (30_encoding.md) -/

/-- R60: W[67:64], W[63:32] and W[31:0] are the three fields, and a word is those three and nothing more. -/
def Obligations.CommandWordIsItsThreeFields : Prop :=
  (∀ w : CommandWord,
    w.toNat = (opField w).toNat * 2 ^ 64 + (aField w).toNat * 2 ^ 32 + (bField w).toNat) ∧
  (∀ (op : BitVec 4) (a b : Word),
    opField (op ++ a ++ b) = op ∧ aField (op ++ a ++ b) = a ∧ bField (op ++ a ++ b) = b)

/-- R61, R62: what each format's commands use of A and B, and that any other non-zero bit rejects the word. -/
def Obligations.FormatsUseTheirBitsAndRejectTheRest : Prop :=
  ∀ a b : Word,
    (decode (0x1#4 ++ a ++ b) = .execute (.xor a b) ∧
      decode (0x2#4 ++ a ++ b) = .execute (.and a b) ∧
      decode (0x3#4 ++ a ++ b) = .execute (.shr a b)) ∧
    (a.toNat < 256 ∧ b = 0#32 →
      decode (0x5#4 ++ a ++ b) = .execute (.crcbyte (BitVec.ofNat 8 a.toNat)) ∧
      decode (0x7#4 ++ a ++ b) = .execute (.tread (BitVec.ofNat 8 a.toNat))) ∧
    (256 ≤ a.toNat ∨ b ≠ 0#32 →
      decode (0x5#4 ++ a ++ b) = .reject .reservedOperand ∧
      decode (0x7#4 ++ a ++ b) = .reject .reservedOperand) ∧
    (a = 0#32 ∧ b = 0#32 →
      decode (0x0#4 ++ a ++ b) = .execute .nop ∧
      decode (0x4#4 ++ a ++ b) = .execute .crcinit ∧
      decode (0x6#4 ++ a ++ b) = .execute .crcread) ∧
    (a ≠ 0#32 ∨ b ≠ 0#32 →
      decode (0x0#4 ++ a ++ b) = .reject .reservedOperand ∧
      decode (0x4#4 ++ a ++ b) = .reject .reservedOperand ∧
      decode (0x6#4 ++ a ++ b) = .reject .reservedOperand)

/-- R64: a word selects a command exactly when masked it equals the row's match, and no two rows match one word. -/
def Obligations.MatchAndMaskRowsSelectTheCommands : Prop :=
  ∀ w : CommandWord,
    (decode w = .execute .nop ↔ w &&& 0xFFFFFFFFFFFFFFFFF#68 = 0x00000000000000000#68) ∧
    ((∃ a b, decode w = .execute (.xor a b)) ↔ w &&& 0xF0000000000000000#68 = 0x10000000000000000#68) ∧
    ((∃ a b, decode w = .execute (.and a b)) ↔ w &&& 0xF0000000000000000#68 = 0x20000000000000000#68) ∧
    ((∃ a n, decode w = .execute (.shr a n)) ↔ w &&& 0xF0000000000000000#68 = 0x30000000000000000#68) ∧
    (decode w = .execute .crcinit ↔ w &&& 0xFFFFFFFFFFFFFFFFF#68 = 0x40000000000000000#68) ∧
    ((∃ c, decode w = .execute (.crcbyte c)) ↔ w &&& 0xFFFFFFF00FFFFFFFF#68 = 0x50000000000000000#68) ∧
    (decode w = .execute .crcread ↔ w &&& 0xFFFFFFFFFFFFFFFFF#68 = 0x60000000000000000#68) ∧
    ((∃ i, decode w = .execute (.tread i)) ↔ w &&& 0xFFFFFFF00FFFFFFFF#68 = 0x70000000000000000#68) ∧
    (∀ r₁ ∈ rows, ∀ r₂ ∈ rows, r₁.selects w = true → r₂.selects w = true → r₁ = r₂)

/-- R65: every word has the one outcome its fields give, the opcode tested before the operand bits. -/
def Obligations.DecodingIsTotalAndOpcodeComesFirst : Prop :=
  ∀ w : CommandWord,
    let op := w.toNat / 2 ^ 64
    let a := w.toNat / 2 ^ 32 % 2 ^ 32
    let b := w.toNat % 2 ^ 32
    let reservedN := a ≠ 0 ∨ b ≠ 0
    let reservedA8 := a / 2 ^ 8 ≠ 0 ∨ b ≠ 0
    (8 ≤ op → decode w = .reject .illegalOpcode) ∧
    (op = 0 → decode w = if reservedN then .reject .reservedOperand else .execute .nop) ∧
    (op = 1 → decode w = .execute (.xor (BitVec.ofNat 32 a) (BitVec.ofNat 32 b))) ∧
    (op = 2 → decode w = .execute (.and (BitVec.ofNat 32 a) (BitVec.ofNat 32 b))) ∧
    (op = 3 → decode w = .execute (.shr (BitVec.ofNat 32 a) (BitVec.ofNat 32 b))) ∧
    (op = 4 → decode w = if reservedN then .reject .reservedOperand else .execute .crcinit) ∧
    (op = 5 → decode w = if reservedA8 then .reject .reservedOperand else .execute (.crcbyte (BitVec.ofNat 8 a))) ∧
    (op = 6 → decode w = if reservedN then .reject .reservedOperand else .execute .crcread) ∧
    (op = 7 → decode w = if reservedA8 then .reject .reservedOperand else .execute (.tread (BitVec.ofNat 8 a))) ∧
    (decode w ≠ .reject .illegalOpcode ∧ decode w ≠ .reject .reservedOperand ↔ wellFormedWord w = true)

/-- Decoding an encoded command gives it back, for every command and every operand. -/
def Obligations.DecodeOfEncodeIsTheCommand : Prop :=
  ∀ i : Instr, decode (encode i) = .execute i ∧ wellFormedWord (encode i) = true

/-- Each command has one word: a word that decodes to a command is that command's encoding. -/
def Obligations.EncodeOfDecodeIsTheWord : Prop :=
  ∀ (w : CommandWord) (i : Instr), decode w = .execute i → encode i = w

/-- R68, and one word of each family written out from its encoding row. -/
def Obligations.WrittenOutWordsDecode : Prop :=
  decode 0x00000000000000000#68 = .execute .nop ∧
  decode 0x1EDB883207FFFFFFF#68 = .execute (.xor 0xEDB88320#32 0x7FFFFFFF#32) ∧
  decode 0x31234567800000004#68 = .execute (.shr 0x12345678#32 4#32) ∧
  decode 0x50000003000000000#68 = .execute (.crcbyte 0x30#8) ∧
  decode 0x70000008000000000#68 = .execute (.tread 0x80#8) ∧
  decode 0x50000013500000000#68 = .reject .reservedOperand ∧
  decode 0xFFFFFFFFFFFFFFFFF#68 = .reject .illegalOpcode

/-- R68: an idle interface that presents zeros changes nothing: the all-zero word is NOP, and accepting it leaves the
block as it was. -/
def Obligations.AllZeroWordChangesNothing : Prop :=
  ∀ (s : State) (rest : List HostInput),
    decode 0#68 = .execute .nop ∧
    (s.accepting = true → s.presented = none → s.script = .present 0#68 :: rest →
      ∃ t, step s = .next t ∧ t.crc = s.crc ∧ t.res = s.res ∧ t.status = s.status ∧ t.table = s.table ∧
        t.bidx = s.bidx ∧ t.presented = none ∧ t.resetLine = s.resetLine ∧ t.epoch = s.epoch ∧ t.script = rest)

/-! ## The step and the interface -/

/-- A step of a block that accepts commands is exec of the decoded word: the word held if one is, else the one the
host presents in this step. Around exec the step clears the interface and moves the host's script on, except past a
word that is still waiting to be presented (log 5). -/
def Obligations.StepRunsTheDecodedCommand : Prop :=
  ∀ (s : State) (w v : CommandWord) (i : Instr) (rest : List HostInput),
    s.accepting = true → decode w = .execute i →
    (s.presented = none → s.script = .present w :: rest →
      step s = exec i ((s.setScript rest).setPresented none)) ∧
    (s.presented = some w → s.script = [] → step s = exec i (s.setPresented none)) ∧
    (s.presented = some w → s.script = .idle :: rest ∨ s.script = .releaseReset :: rest →
      step s = exec i ((s.setScript rest).setPresented none)) ∧
    (s.presented = some w → s.script = .present v :: rest → step s = exec i (s.setPresented none))

/-- A word placed by `withFetchWord` that decodes is what the next step runs, in a state that accepts commands and, if
the block accepted them already, is the same but for the interface (log 11). -/
def Obligations.FetchWordIsRunByTheNextStep : Prop :=
  ∀ (s : State) (w : CommandWord) (i : Instr), decodeTableWord 72 w.toNat = some i →
    ∃ u : State, step (s.withFetchWord 72 w.toNat) = exec i u ∧ u.accepting = true ∧ u.presented = none ∧
      u.script = s.script ∧ u.crc = s.crc ∧ u.res = s.res ∧
      (s.accepting = true → u = s.setPresented none) ∧ (s.accepting = false → u.TableBuilt)

/-- The machine never stops: from every state the step answers a next state (R142, R143: a rejection is a next state,
and no other error exists). -/
def Obligations.EveryStepAnswersANextState : Prop :=
  ∀ s : State, ∃ t, step s = .next t

/-- R47: commands presented one after another to a block that accepts them run in that order, one a step, each whole
on the state the one before it left, and the outputs show the last one's state. -/
def Obligations.CommandsRunInOrderAndWhole : Prop :=
  ∀ (ws : List CommandWord) (s : State) (rest : List HostInput),
    s.accepting = true → s.presented = none → s.script = ws.map .present ++ rest →
    Host.Core.run Sys2Proof.core ws.length s
        = .next ((ws.foldl (fun u w => afterWord w u) s).setScript rest) ∧
      ((ws.foldl (fun u w => afterWord w u) s).setScript rest).resOutput
        = (ws.foldl (fun u w => afterWord w u) s).res ∧
      ((ws.foldl (fun u w => afterWord w u) s).setScript rest).statusOutput
        = (ws.foldl (fun u w => afterWord w u) s).status

/-! ## BitOps (40_bitops.md) -/

/-- R80: XOR, its encoding, its result bit by bit, what it leaves alone, its corner cases and example. -/
def Obligations.XorWritesTheBitwiseExclusiveOr : Prop :=
  ∀ (a b : Word) (s : State),
    decode (0x1#4 ++ a ++ b) = .execute (.xor a b) ∧
    ∃ t, exec (.xor a b) s = .next t ∧
      (∀ i, i < 32 → t.res.getLsbD i = (a.getLsbD i ^^ b.getLsbD i)) ∧ OnlyResWritten s t ∧
      (b = a → t.res = 0#32) ∧ (b = 0#32 → t.res = a) ∧ (b = 0xFFFFFFFF#32 → t.res = ~~~a) ∧
      (a = 0x80000000#32 → b = 1#32 → t.res = 0x80000001#32) ∧
      (a = 0xEDB88320#32 → b = 0x7FFFFFFF#32 → t.res = 0x92477CDF#32)

/-- R81: AND, as R80. -/
def Obligations.AndWritesTheBitwiseConjunction : Prop :=
  ∀ (a b : Word) (s : State),
    decode (0x2#4 ++ a ++ b) = .execute (.and a b) ∧
    ∃ t, exec (.and a b) s = .next t ∧
      (∀ i, i < 32 → t.res.getLsbD i = (a.getLsbD i && b.getLsbD i)) ∧ OnlyResWritten s t ∧
      (b = a → t.res = a) ∧ (b = 0#32 → t.res = 0#32) ∧ (b = 0xFFFFFFFF#32 → t.res = a) ∧
      (a = 0x80000000#32 → b = 0x80000000#32 → t.res = 0x80000000#32) ∧
      (a = 0xEDB88320#32 → b = 0xFF#32 → t.res = 0x00000020#32)

/-- R82: SHR gives floor(A / 2^B) for every 32-bit count, with no sign extension. -/
def Obligations.ShrWritesTheFloorOfTheQuotient : Prop :=
  ∀ (a n : Word) (s : State),
    decode (0x3#4 ++ a ++ n) = .execute (.shr a n) ∧
    ∃ t, exec (.shr a n) s = .next t ∧
      t.res.toNat = a.toNat / 2 ^ n.toNat ∧
      (∀ i, i < 32 → t.res.getLsbD i = (decide (i + n.toNat ≤ 31) && a.getLsbD (i + n.toNat))) ∧
      OnlyResWritten s t ∧
      (n = 0#32 → t.res = a) ∧ (n = 31#32 → t.res.toNat = (a.getLsbD 31).toNat) ∧
      (32 ≤ n.toNat → t.res = 0#32) ∧
      (a = 0xFFFFFFFF#32 → n = 1#32 → t.res = 0x7FFFFFFF#32) ∧
      (a = 256#32 → n = 8#32 → t.res = 1#32)

/-- R83: the BitOps' results are the exact unsigned ones and depend on the operands alone, whatever CRC, TABLE, STATUS
and earlier commands left. -/
def Obligations.BitOpsDependOnTheirOperandsAlone : Prop :=
  ∀ (a b : Word) (s₁ s₂ : State), ∀ i ∈ [Instr.xor a b, Instr.and a b, Instr.shr a b],
    ∃ t₁ t₂, exec i s₁ = .next t₁ ∧ exec i s₂ = .next t₂ ∧ t₁.res = t₂.res ∧
      t₁.res.toNat = (match i with
        | .xor x y => x.toNat ^^^ y.toNat
        | .and x y => x.toNat &&& y.toNat
        | _ => a.toNat / 2 ^ b.toNat) ∧ t₁.res.toNat ≤ 2 ^ 32 - 1

/-- R84, R85: the laws of the family; the two counts of a double shift add exactly. -/
def Obligations.BitOpsLaws : Prop :=
  (∀ a : Word, bitXor a a = 0#32 ∧ bitAnd a a = a) ∧ shr 256#32 8 = 1#32 ∧ shr 1#32 1 = 0#32 ∧
  (∀ a b c : Word,
    bitXor a b = bitXor b a ∧ bitXor (bitXor a b) c = bitXor a (bitXor b c) ∧ bitXor a 0#32 = a ∧
    bitAnd a b = bitAnd b a ∧ bitAnd (bitAnd a b) c = bitAnd a (bitAnd b c) ∧ bitAnd a 0xFFFFFFFF#32 = a ∧
    bitAnd a (bitXor b c) = bitXor (bitAnd a b) (bitAnd a c)) ∧
  (∀ (a b : Word) (m n : Nat), m < 2 ^ 32 → n < 2 ^ 32 →
    shr (bitXor a b) n = bitXor (shr a n) (shr b n) ∧ shr (bitAnd a b) n = bitAnd (shr a n) (shr b n) ∧
    shr (shr a m) n = shr a (m + n)) ∧
  (∀ a : Word, bitAnd (shr a 8) 0xFFFFFF#32 = shr a 8)

/-! ## ChecksumEngine (42_checksum.md) -/

/-- R91: the named entries, and that TableEntry is linear over GF(2). -/
def Obligations.TableEntryIsLinear : Prop :=
  tableEntry 0#8 = 0#32 ∧ tableEntry 128#8 = 0xEDB88320#32 ∧ tableEntry 1#8 = 0x77073096#32 ∧
  tableEntry 255#8 = 0x2D02EF8D#32 ∧
  ∀ i j : Byte, tableEntry (i ^^^ j) = tableEntry i ^^^ tableEntry j

/-- R93: CRCINIT, at any point; twice is once; CRCREAD after it gives all-ones. -/
def Obligations.CrcInitSetsTheInitialValue : Prop :=
  ∀ (a b : Word) (s : State),
    decode 0x40000000000000000#68 = .execute .crcinit ∧
    (a ≠ 0#32 ∨ b ≠ 0#32 → RejectsReserved (0x4#4 ++ a ++ b) s) ∧
    ∃ t u, exec .crcinit s = .next t ∧ t.crc = 0xFFFFFFFF#32 ∧ OnlyCrcWritten s t ∧
      exec .crcinit t = .next t ∧ exec .crcread t = .next u ∧ u.res = 0xFFFFFFFF#32

/-- R94: CRCBYTE, one iteration of the loop on the table as it stands. -/
def Obligations.CrcByteUpdatesTheCrc : Prop :=
  ∀ (a b : Word) (c : Byte) (s : State),
    decode (0x5#4 ++ (0#24 ++ c) ++ 0#32) = .execute (.crcbyte c) ∧
    (256 ≤ a.toNat ∨ b ≠ 0#32 → RejectsReserved (0x5#4 ++ a ++ b) s) ∧
    ∃ t entry, exec (.crcbyte c) s = .next t ∧
      s.table[((s.crc ^^^ c.setWidth 32) &&& 0xFF#32).toNat]? = some entry ∧
      t.crc = ((s.crc >>> 8) &&& 0xFFFFFF#32) ^^^ entry ∧ t.crc = (s.crc >>> 8) ^^^ entry ∧
      OnlyCrcWritten s t ∧
      (s.TableBuilt → s.crc = 0#32 → c = 0#8 → t.crc = 0#32) ∧
      (s.TableBuilt → s.crc = 0xFFFFFFFF#32 → c = 0xFF#8 →
        (s.crc ^^^ c.setWidth 32) &&& 0xFF#32 = 0#32 ∧ t.crc = 0x00FFFFFF#32) ∧
      (s.TableBuilt → s.crc = 0xFFFFFFFF#32 → c = 0x30#8 →
        (s.crc ^^^ c.setWidth 32) &&& 0xFF#32 = 0xCF#32 ∧ entry = 0x0BDBDF21#32 ∧ t.crc = 0x0B2420DE#32)

/-- R95: CRCREAD gives CRC with no inversion and goes on with the message; before any byte it gives all-ones. -/
def Obligations.CrcReadGivesTheCrcAsItStands : Prop :=
  (∀ (a b : Word) (s : State),
    decode 0x60000000000000000#68 = .execute .crcread ∧
    (a ≠ 0#32 ∨ b ≠ 0#32 → RejectsReserved (0x6#4 ++ a ++ b) s) ∧
    ∃ t, exec .crcread s = .next t ∧ t.res = s.crc ∧ OnlyResWritten s t ∧
      ∀ c : Byte, ∃ u v, exec (.crcbyte c) s = .next u ∧ exec (.crcbyte c) t = .next v ∧ u.crc = v.crc) ∧
  (∀ (s : State) (commands : List Instr), (∀ c, Instr.crcbyte c ∉ commands) →
    s.accepting = true → s.presented = none →
    (s.script = presentAll (.crcinit :: commands ++ [.crcread]) →
      ∃ t, Host.Core.run Sys2Proof.core (commands.length + 2) s = .next t ∧ t.res = 0xFFFFFFFF#32) ∧
    (s.crc = 0xFFFFFFFF#32 → s.script = presentAll (commands ++ [.crcread]) →
      ∃ t, Host.Core.run Sys2Proof.core (commands.length + 1) s = .next t ∧ t.res = 0xFFFFFFFF#32)) ∧
  (∀ s : State, s.accepting = true → s.TableBuilt → s.presented = none →
    s.script = presentAll (messageCommands [0x30#8, 0x31#8, 0x30#8, 0x31#8, 0x35#8, 0x36#8, 0x37#8, 0x38#8]) →
    ∃ t, Host.Core.run Sys2Proof.core 10 s = .next t ∧ t.res = 0xD629C28D#32)

/-- R96: TREAD gives the entry; on a built table that is TableEntry(i), for every index. -/
def Obligations.TableReadGivesTheEntry : Prop :=
  ∀ (a b : Word) (i : Byte) (s : State),
    decode (0x7#4 ++ (0#24 ++ i) ++ 0#32) = .execute (.tread i) ∧
    (256 ≤ a.toNat ∨ b ≠ 0#32 → RejectsReserved (0x7#4 ++ a ++ b) s) ∧
    ∃ t, exec (.tread i) s = .next t ∧ s.table[i.toNat]? = some t.res ∧ OnlyResWritten s t ∧
      (s.Inv → s.accepting = true → t.res = tableEntry i) ∧
      (s.TableBuilt → t.res = tableEntry i) ∧
      (s.TableBuilt → i = 1#8 → t.res = 0x77073096#32) ∧ (s.TableBuilt → i = 0#8 → t.res = 0#32)

/-- R97: the commands of a message leave RES and CRC at its checksum, for every message, and Checksum is the loop. -/
def Obligations.MessageCommandsLeaveItsChecksum : Prop :=
  checksum [] = 0xFFFFFFFF#32 ∧
  (∀ (m : List Byte) (c : Byte), checksum (m ++ [c])
    = bitXor (shr (checksum m) 8)
        (tableEntry ((bitAnd (bitXor (checksum m) (c.setWidth 32)) 0xFF#32).setWidth 8))) ∧
  (∀ (m : List Byte) (s : State) (rest : List HostInput),
    s.accepting = true → s.TableBuilt → s.presented = none →
    s.script = presentAll (messageCommands m) ++ rest →
    ∃ t, Host.Core.run Sys2Proof.core (m.length + 2) s = .next t ∧ t.res = checksum m ∧ t.crc = checksum m ∧
      t.status = s.status ∧ t.table = s.table ∧ t.bidx = s.bidx ∧ t.presented = none ∧
      t.resetLine = s.resetLine ∧ t.epoch = s.epoch ∧ t.script = rest)

/-- R98: the table-driven checksum of every message is the reflected CRC-32 computed bit by bit, least significant bit
first, with no final inversion. The bit-serial definition is the model's reading of "standard" (log 18). -/
def Obligations.ChecksumIsTheBitSerialReflectedCrc : Prop :=
  ∀ m : List Byte, checksum m = bitSerialChecksum m

/-- R99: the empty message; that any two blocks give one message the same value; the dependence on order; and that only
a code point's low 8 bits are read. -/
def Obligations.ChecksumFacts : Prop :=
  checksum [] = 0xFFFFFFFF#32 ∧
  (∃ c d : Byte, checksum [c, d] ≠ checksum [d, c]) ∧
  (∀ (m : List Byte) (s₁ s₂ : State), s₁.accepting = true → s₂.accepting = true → s₁.TableBuilt → s₂.TableBuilt →
    s₁.presented = none → s₂.presented = none →
    s₁.script = presentAll (messageCommands m) → s₂.script = presentAll (messageCommands m) →
    ∃ t₁ t₂, Host.Core.run Sys2Proof.core (m.length + 2) s₁ = .next t₁ ∧
      Host.Core.run Sys2Proof.core (m.length + 2) s₂ = .next t₂ ∧ t₁.res = t₂.res) ∧
  (∀ crc codePoint : Word,
    bitAnd (bitXor crc codePoint) 0xFF#32 = bitAnd (bitXor crc (zext32 (codePoint.setWidth 8))) 0xFF#32)

/-- R173: words that write no CRC may stand anywhere in a message: what is left of CRC is what the CRC-writing words
alone leave; CRCINIT and reset discard the message so far. -/
def Obligations.InterleavedWordsDoNotChangeTheChecksum : Prop :=
  (∀ (ws : List CommandWord) (s₁ s₂ : State) (rest₁ rest₂ : List HostInput),
    s₁.accepting = true → s₂.accepting = true → s₁.presented = none → s₂.presented = none →
    s₁.crc = s₂.crc → s₁.table = s₂.table →
    s₁.script = ws.map .present ++ rest₁ → s₂.script = (ws.filter writesCrc).map .present ++ rest₂ →
    ∃ t₁ t₂, Host.Core.run Sys2Proof.core ws.length s₁ = .next t₁ ∧
      Host.Core.run Sys2Proof.core (ws.filter writesCrc).length s₂ = .next t₂ ∧ t₁.crc = t₂.crc) ∧
  (∀ i : Instr, writesCrc (encode i) = true ↔ i = .crcinit ∨ ∃ c, i = .crcbyte c) ∧
  (∀ w : CommandWord, (∃ code, decode w = .reject code) → writesCrc w = false) ∧
  (∀ s : State, ∃ t, exec .crcinit s = .next t ∧ t.crc = 0xFFFFFFFF#32) ∧
  (∀ (s : State) (rest : List HostInput), s.script = .assertReset :: rest →
    ∃ t, step s = .next t ∧ t.crc = 0xFFFFFFFF#32)

/-! ## Control (44_control.md) -/

/-- R110: NOP changes nothing; with operand bits it is rejected; it does not bypass initialisation. -/
def Obligations.NopChangesNothing : Prop :=
  ∀ (a b : Word) (s : State),
    decode 0x00000000000000000#68 = .execute .nop ∧ exec .nop s = .next s ∧
    (a ≠ 0#32 ∨ b ≠ 0#32 → RejectsReserved (0x0#4 ++ a ++ b) s) ∧
    (s.Inv → s.ready = false → s.resetLine = false → s.presented = some 0#68 → s.script = [] →
      ∃ t, step s = .next t ∧ t.presented = some 0#68)

/-- R112, R113: no command writes STATUS, TABLE or BIDX, whatever it is and wherever it runs. -/
def Obligations.NoCommandWritesStatusTableOrBidx : Prop :=
  ∀ (i : Instr) (s : State), ∃ t, exec i s = .next t ∧
    t.status = s.status ∧ t.table = s.table ∧ t.bidx = s.bidx ∧ SameInterface s t ∧
    (t.crc = s.crc ∨ t.res = s.res)

/-! ## State and its writers (10_state.md) -/

/-- R33: the values right after reset; TABLE's entries are free values, of which nothing is claimed. -/
def Obligations.ResetStateHoldsTheSpecifiedValues : Prop :=
  State.reset.crc = 0xFFFFFFFF#32 ∧ State.reset.res = 0x00000000#32 ∧ State.reset.status = 0x00000000#32 ∧
  readyBit State.reset.status = false ∧ errBit State.reset.status = false ∧
  ecodeField State.reset.status = 0#4 ∧ State.reset.bidx = 0#9 ∧
  ∀ i : Byte, readEntry State.reset.table i = Config.unbuiltEntry 0 i.toNat

/-- The invariant holds right after reset. -/
def Obligations.ResetMeetsTheInvariant : Prop := State.reset.Inv

/-- Every step keeps the invariant: STATUS's reserved bits stay 0, ERR = 0 if and only if ECODE = 0, ECODE stays legal
(R23, R24), BIDX stays in [0, 256] with READY exactly at 256 (R26), and every entry below BIDX is built (R25). -/
def Obligations.EveryStepKeepsTheInvariant : Prop :=
  ∀ s t : State, s.Inv → step s = .next t → t.Inv

/-- Who writes each element, of every step: CRC, RES, STATUS, TABLE and BIDX change only by the agents and commands the
rules name (R21, R22, R23, R25, R26, R29). -/
def Obligations.EveryElementHasOnlyItsNamedWriters : Prop :=
  ∀ s : State, s.script.head? ≠ some .assertReset → ∃ t, step s = .next t ∧
    (t.crc ≠ s.crc → ∃ w, wordAcceptedNext s = some w ∧
      (decode w = .execute .crcinit ∨ ∃ c, decode w = .execute (.crcbyte c))) ∧
    (t.res ≠ s.res → ∃ w, wordAcceptedNext s = some w ∧
      ((∃ a b, decode w = .execute (.xor a b) ∨ decode w = .execute (.and a b) ∨ decode w = .execute (.shr a b)) ∨
        decode w = .execute .crcread ∨ ∃ i, decode w = .execute (.tread i))) ∧
    (t.status ≠ s.status →
      (s.resetLine = false ∧ s.bidx = 255#9 ∧ t.status = s.status ||| 1#32) ∨
      ∃ w code, wordAcceptedNext s = some w ∧ decode w = .reject code) ∧
    (t.table ≠ s.table ∨ t.bidx ≠ s.bidx → s.resetLine = false ∧ s.bidx.toNat < 256)

/-- R25: once READY = 1, TABLE is immutable until the next reset, over any number of steps. -/
def Obligations.TableIsImmutableOnceReady : Prop :=
  ∀ (k : Nat) (s : State), s.Inv → s.ready = true → NoReset s.script →
    ∃ t, Host.Core.run Sys2Proof.core k s = .next t ∧ t.table = s.table ∧ t.ready = true ∧ t.TableBuilt

/-! ## Rejection (60_exceptions.md) -/

/-- R142: an accepted word that is rejected sets ERR, records its code if none was recorded, changes nothing else and
is consumed; the next word is accepted normally. -/
def Obligations.RejectionRecordsTheFirstCodeAndNothingElse : Prop :=
  ∀ (s : State) (w : CommandWord) (code : RejectCode),
    wordAcceptedNext s = some w → decode w = .reject code →
    ∃ t, step s = .next t ∧ errBit t.status = true ∧
      ecodeField t.status = (if ecodeField s.status = 0#4 then
        (match code with | .illegalOpcode => 1#4 | .reservedOperand => 2#4) else ecodeField s.status) ∧
      (∀ k, k ≠ 1 → ¬(4 ≤ k ∧ k ≤ 7) → t.status.getLsbD k = s.status.getLsbD k) ∧
      t.crc = s.crc ∧ t.res = s.res ∧ t.table = s.table ∧ t.bidx = s.bidx ∧ t.ready = s.ready ∧
      t.presented = none ∧ t.resetLine = s.resetLine ∧ t.epoch = s.epoch ∧ t.accepting = true

/-- R140, R141: which words are rejected with which code, and what ECODE holds after the first. -/
def Obligations.WhichWordsAreRejectedWithWhichCode : Prop :=
  ∀ (op : BitVec 4) (a b : Word) (s : State),
    (8 ≤ op.toNat → decode (op ++ a ++ b) = .reject .illegalOpcode ∧
      ∃ t, acceptWord (op ++ a ++ b) s = .next t ∧ OnlyStatusWritten s t ∧ errBit t.status = true ∧
        (∀ k, k ≠ 1 → ¬(4 ≤ k ∧ k ≤ 7) → t.status.getLsbD k = s.status.getLsbD k) ∧
        (ecodeField s.status = 0#4 → ecodeField t.status = 1#4) ∧
        (ecodeField s.status ≠ 0#4 → ecodeField t.status = ecodeField s.status)) ∧
    (decode (op ++ a ++ b) = .reject .reservedOperand ↔
      ((op = 0#4 ∨ op = 4#4 ∨ op = 6#4) ∧ (a ≠ 0#32 ∨ b ≠ 0#32)) ∨
      ((op = 5#4 ∨ op = 7#4) ∧ (a >>> 8 ≠ 0#32 ∨ b ≠ 0#32))) ∧
    (decode (op ++ a ++ b) = .reject .reservedOperand →
      ∃ t, acceptWord (op ++ a ++ b) s = .next t ∧ OnlyStatusWritten s t ∧ errBit t.status = true ∧
        (∀ k, k ≠ 1 → ¬(4 ≤ k ∧ k ≤ 7) → t.status.getLsbD k = s.status.getLsbD k) ∧
        (ecodeField s.status = 0#4 → ecodeField t.status = 2#4) ∧
        (ecodeField s.status ≠ 0#4 → ecodeField t.status = ecodeField s.status))

/-- R147: after the first rejection ERR and ECODE stay as they are until reset, over any number of steps, and a further
rejection changes nothing. -/
def Obligations.ErrorStaysUntilReset : Prop :=
  (∀ (k : Nat) (s : State), s.Inv → errBit s.status = true → NoReset s.script →
    ∃ t, Host.Core.run Sys2Proof.core k s = .next t ∧ errBit t.status = true ∧
      ecodeField t.status = ecodeField s.status) ∧
  (∀ (s : State) (w : CommandWord) (code : RejectCode), s.Inv → errBit s.status = true →
    decode w = .reject code → acceptWord w s = .next s) ∧
  (∀ (s : State) (rest : List HostInput), s.script = .assertReset :: rest →
    ∃ t, step s = .next t ∧ errBit t.status = false ∧ ecodeField t.status = 0#4)

/-! ## Reset and initialisation (70_reset_and_hazards.md) -/

/-- R160: what asserting reset sets, at any boundary and whatever was held, that the block takes no step while reset is
asserted, and that the init sequencer starts after release. -/
def Obligations.ResetSetsItsValuesAndHoldsTheBlock : Prop :=
  (∀ (s : State) (rest : List HostInput), s.script = .assertReset :: rest →
    ∃ t, step s = .next t ∧ t.crc = 0xFFFFFFFF#32 ∧ t.res = 0#32 ∧ t.status = 0#32 ∧ t.bidx = 0#9 ∧
      (∀ i : Byte, readEntry t.table i = Config.unbuiltEntry (s.epoch + 1) i.toNat) ∧
      t.presented = none ∧ t.resetLine = true ∧ t.script = rest) ∧
  (∀ s : State, s.resetLine = true → s.script.head? ≠ some .assertReset → s.script.head? ≠ some .releaseReset →
    ∃ t, step s = .next t ∧ t.crc = s.crc ∧ t.res = s.res ∧ t.status = s.status ∧ t.table = s.table ∧
      t.bidx = s.bidx ∧ t.resetLine = true) ∧
  (∀ (s : State) (rest : List HostInput), s.script = .releaseReset :: rest →
    ∃ t, step s = .next t ∧ t.resetLine = false) ∧
  (∀ s : State, s.resetLine = false → s.bidx = 0#9 → s.script.head? ≠ some .assertReset →
    ∃ t, step s = .next t ∧ t.bidx = 1#9 ∧ readEntry t.table 0#8 = tableEntry 0#8)

/-- R162: one init step, and that there is none while reset is asserted or once BIDX is 256. -/
def Obligations.InitStepBuildsOneEntry : Prop :=
  (∀ s : State, s.resetLine = false → s.bidx.toNat < 256 → s.script.head? ≠ some .assertReset →
    ∃ t, step s = .next t ∧
      (∀ i : Byte, i.toNat = s.bidx.toNat → readEntry t.table i = tableEntry i) ∧
      (∀ i : Byte, i.toNat ≠ s.bidx.toNat → readEntry t.table i = readEntry s.table i) ∧
      t.bidx.toNat = s.bidx.toNat + 1 ∧
      (s.bidx.toNat = 255 → t.ready = true) ∧ (s.bidx.toNat ≠ 255 → t.ready = s.ready) ∧
      (∀ k, k ≠ 0 → t.status.getLsbD k = s.status.getLsbD k) ∧ t.crc = s.crc ∧ t.res = s.res ∧
      t.resetLine = s.resetLine ∧ t.epoch = s.epoch) ∧
  (∀ s : State, (s.resetLine = true ∨ 256 ≤ s.bidx.toNat) → s.script.head? ≠ some .assertReset →
    ∃ t, step s = .next t ∧ t.table = s.table ∧ t.bidx = s.bidx)

/-- R163: the init sequencer takes exactly the steps that are left to 256, whatever the host does short of reset, and
then none; the table is complete and READY is 1. -/
def Obligations.InitialisationEndsWithTheTableBuilt : Prop :=
  ∀ (s : State) (more : Nat), s.Inv → s.ready = false → s.resetLine = false → NoReset s.script →
    (∀ k, k < 256 - s.bidx.toNat → ∃ u, Host.Core.run Sys2Proof.core k s = .next u ∧ u.ready = false ∧
      u.bidx.toNat = s.bidx.toNat + k) ∧
    (∃ t, Host.Core.run Sys2Proof.core (256 - s.bidx.toNat) s = .next t ∧ t.ready = true ∧ t.bidx = 256#9 ∧
      t.TableBuilt ∧ t.crc = s.crc ∧ t.res = s.res ∧ errBit t.status = errBit s.status) ∧
    (∃ t, Host.Core.run Sys2Proof.core (256 - s.bidx.toNat + more) s = .next t ∧ t.ready = true ∧
      t.bidx = 256#9 ∧ t.TableBuilt)

/-- R164: the remaining init steps, one by one, end in exactly the state of the collapsed initialisation, a held word
still held, and until the last of them the host sees no change. -/
def Obligations.InitStepsEqualTheCollapsedInitialisation : Prop :=
  ∀ s : State, s.Inv → s.ready = false → s.resetLine = false → s.script = [] →
    Host.Core.run Sys2Proof.core (256 - s.bidx.toNat) s = .next (initCollapsed s) ∧
    ∀ k, k < 256 - s.bidx.toNat → ∃ u : State, Host.Core.run Sys2Proof.core k s = .next u ∧
      u.resOutput = s.resOutput ∧ u.statusOutput = s.statusOutput ∧ u.presented = s.presented

/-- R166: nothing survives reset: from any state whatever, the one before the first reset among them, asserting and
releasing reset leads to the same CRC, RES, STATUS and BIDX and to the same complete table. -/
def Obligations.NothingSurvivesReset : Prop :=
  ∀ (s : State) (rest : List HostInput), s.script = .assertReset :: .releaseReset :: rest → NoReset rest →
    ∃ k t, Host.Core.run Sys2Proof.core k s = .next t ∧ t.crc = 0xFFFFFFFF#32 ∧ t.res = 0#32 ∧
      t.status = 0x00000001#32 ∧ t.bidx = 256#9 ∧ t.table = builtTable ∧ t.TableBuilt

/-- R170: while READY = 0 a presented word, one held already or one the host presents in this step, is held, neither
executed nor rejected; it is the first word accepted once READY is 1; reset discards it. -/
def Obligations.PresentedWordIsHeldUntilReady : Prop :=
  (∀ (s : State) (w : CommandWord), s.Inv → s.ready = false → s.resetLine = false → s.presented = some w →
    NoReset s.script →
    (∃ t, step s = .next t ∧ t.presented = some w ∧ t.crc = s.crc ∧ t.res = s.res ∧
      errBit t.status = errBit s.status ∧ ecodeField t.status = ecodeField s.status) ∧
    (∃ t u, Host.Core.run Sys2Proof.core (256 - s.bidx.toNat) s = .next t ∧ t.ready = true ∧
      t.presented = some w ∧ t.crc = s.crc ∧ t.res = s.res ∧ errBit t.status = errBit s.status ∧
      ecodeField t.status = ecodeField s.status ∧ t.TableBuilt ∧ wordAcceptedNext t = some w ∧
      step t = acceptWord w u ∧ u.presented = none ∧ u.crc = t.crc ∧ u.res = t.res ∧ u.status = t.status ∧
      u.table = t.table ∧ u.bidx = t.bidx)) ∧
  (∀ (s : State) (w : CommandWord) (rest : List HostInput), s.Inv → s.ready = false → s.resetLine = false →
    s.presented = none → s.script = .present w :: rest →
    (∃ t, step s = .next t ∧ t.presented = some w ∧ t.crc = s.crc ∧ t.res = s.res ∧
      errBit t.status = errBit s.status ∧ ecodeField t.status = ecodeField s.status ∧ t.script = rest) ∧
    (NoReset rest → ∃ t, Host.Core.run Sys2Proof.core (256 - s.bidx.toNat) s = .next t ∧ t.ready = true ∧
      t.presented = some w ∧ t.crc = s.crc ∧ t.res = s.res ∧ errBit t.status = errBit s.status ∧
      ecodeField t.status = ecodeField s.status ∧ t.TableBuilt ∧ wordAcceptedNext t = some w)) ∧
  (∀ (s : State) (rest : List HostInput), s.script = .assertReset :: rest →
    ∃ t, step s = .next t ∧ t.presented = none)

/-! ## The host's side (48_host_composition.md) and the assembler (30_encoding.md) -/

/-- R122: under the preconditions the request code is the two digits of the month, the two of the day and the last four
characters of the identifier, 8 ASCII digits. -/
def Obligations.RequestCodeIsMonthDayAndLastFour : Prop :=
  (∀ (month day : Int) (identifier : List Char), hostPreconditions month day identifier = true →
    ∃ m₁ m₂ d₁ d₂ : Char, requestCode month day identifier = [m₁, m₂, d₁, d₂] ++ identifier.drop 4 ∧
      ((m₁.toNat : Int) - 48) * 10 + (m₂.toNat - 48) = month ∧
      ((d₁.toNat : Int) - 48) * 10 + (d₂.toNat - 48) = day ∧
      (requestCode month day identifier).length = 8 ∧
      (requestCode month day identifier).all isAsciiDigit = true) ∧
  requestCode 1 1 ['1', '2', '3', '4', '5', '6', '7', '8'] = ['0', '1', '0', '1', '5', '6', '7', '8']

/-- R124, R125: the final transform, exact by default, and where the wrapping reading differs from it. -/
def Obligations.ResponseIsTheFinalTransform : Prop :=
  (∀ c : Word,
    let y := (c ^^^ 43690#32).toNat
    response Config.hostAddWrapDefault c = (y + 5313) % 100000 ∧ response false c = (y + 5313) % 100000 ∧
    response false c ≤ 99999 ∧
    (y < 4294961983 → response true c = response false c) ∧
    (4294961983 ≤ y → response true c = (y + 5313 - 2 ^ 32) % 100000 ∧ response true c ≠ response false c)) ∧
  response false 0xFFFF5555#32 = 72608 ∧ response true 0xFFFF5555#32 = 5312

/-- R126: the result code is exactly five ASCII digits and, read as a decimal number, is the response. -/
def Obligations.ResultCodeIsFiveDigitsOfTheResponse : Prop :=
  (∀ (wrap : Bool) (c : Word),
    (resultCode wrap c).length = 5 ∧ (resultCode wrap c).all isAsciiDigit = true ∧
    (resultCode wrap c).foldl (fun v d => 10 * v + (d.toNat - 48)) 0 = response wrap c) ∧
  fiveDigits 1056 = ['0', '1', '0', '5', '6']

/-- R127: when a precondition fails there is no result code and no command is issued; short, long and non-digit
identifiers are such failures. -/
def Obligations.FailedPreconditionGivesNoResultAndNoCommand : Prop :=
  ∀ (wrap : Bool) (month day : Int) (identifier : List Char),
    ¬(1 ≤ month ∧ month ≤ 12 ∧ 1 ≤ day ∧ day ≤ 31 ∧ identifier.length = 8 ∧
        ∀ c ∈ identifier, 48 ≤ c.toNat ∧ c.toNat ≤ 57) →
      computeResetCode wrap month day identifier = none ∧ hostSession month day identifier = []

/-- R128: same last four digits give the same code, the code is always 5 ASCII digits, and the xor with 0xAAAA changes only
bits 15:0; the day may change the code, and does in the spec's own example. -/
def Obligations.ResetCodeProperties : Prop :=
  (∀ (wrap : Bool) (month day : Int) (id₁ id₂ : List Char),
    hostPreconditions month day id₁ = true → hostPreconditions month day id₂ = true →
    id₁.drop 4 = id₂.drop 4 →
    computeResetCode wrap month day id₁ = computeResetCode wrap month day id₂) ∧
  (∀ (wrap : Bool) (month day : Int) (identifier : List Char), hostPreconditions month day identifier = true →
    ∃ code, computeResetCode wrap month day identifier = some code ∧ code.length = 5 ∧
      code.all isAsciiDigit = true) ∧
  (∀ (c : Word) (k : Nat), 16 ≤ k → (bitXor c 0xAAAA#32).getLsbD k = c.getLsbD k) ∧
  computeResetCode false 1 1 ['1', '2', '3', '4', '5', '6', '7', '8'] ≠
    computeResetCode false 1 2 ['1', '2', '3', '4', '5', '6', '7', '8']

/-- R123, R129: the whole computation: the host's commands, run by a block that accepts them with ERR = 0, leave a RES
from which the host reads the code; and with ERR = 1 the host discards the result unless it can show which command was
rejected. -/
def Obligations.HostSessionOnTheBlockGivesTheResetCode : Prop :=
  (∀ (wrap canShow : Bool) (month day : Int) (identifier : List Char) (s : State) (rest : List HostInput),
    hostPreconditions month day identifier = true → s.accepting = true → s.TableBuilt → s.presented = none →
    errBit s.status = false → s.script = hostSession month day identifier ++ rest →
    ∃ t, Host.Core.run Sys2Proof.core 10 s = .next t ∧ t.script = rest ∧
      hostReadResult wrap canShow t = computeResetCode wrap month day identifier) ∧
  (∀ (wrap : Bool) (s : State), errBit s.status = true → hostReadResult wrap false s = none)

/-- R70: the four pseudo-instructions and their expansions, and the assembly error of a character above 255. -/
def Obligations.PseudoInstructionsExpand : Prop :=
  (∀ v : Word, assemble (.li v.toNat) = some [.xor v 0#32]) ∧ assemble .clrres = some [.xor 0#32 0#32] ∧
  (∀ str : List Char, (∀ c ∈ str, c.toNat ≤ 255) →
    assemble (.crcstr str) = some (str.map fun c => .crcbyte (BitVec.ofNat 8 c.toNat)) ∧
    assemble (.checksum str) = some (messageCommands (str.map fun c => BitVec.ofNat 8 c.toNat))) ∧
  (∀ (str : List Char) (c : Char), c ∈ str → 255 < c.toNat →
    assemble (.crcstr str) = none ∧ assemble (.checksum str) = none)

/-- R69: a line assembles exactly when its literals are in range, and to the words of its row. -/
def Obligations.AssemblerAcceptsExactlyTheLiteralsInRange : Prop :=
  (∀ line : AsmLine, (assemble line).isSome = line.wellFormed) ∧
  (∀ a b : Word,
    (assemble (.xor a.toNat b.toNat)).map (·.map encode) = some [0x1#4 ++ a ++ b] ∧
    (assemble (.and a.toNat b.toNat)).map (·.map encode) = some [0x2#4 ++ a ++ b] ∧
    (assemble (.shr a.toNat b.toNat)).map (·.map encode) = some [0x3#4 ++ a ++ b]) ∧
  (∀ c : Byte,
    (assemble (.crcbyte c.toNat)).map (·.map encode) = some [0x5#4 ++ (0#24 ++ c) ++ 0#32] ∧
    (assemble (.tread c.toNat)).map (·.map encode) = some [0x7#4 ++ (0#24 ++ c) ++ 0#32]) ∧
  (assemble .nop).map (·.map encode) = some [0x00000000000000000#68] ∧
  (assemble .crcinit).map (·.map encode) = some [0x40000000000000000#68] ∧
  (assemble .crcread).map (·.map encode) = some [0x60000000000000000#68]
end

