-- ==== Sys2Proof/Laws/Decode.lean ====
section
/-! SUPPORT. The fields of a command word, and the decoder on a word given by its fields. -/

namespace Sys2Proof

@[simp] theorem opField_commandWord (op : BitVec 4) (a b : Word) : opField (commandWord op a b) = op := by
  apply BitVec.eq_of_getLsbD_eq
  intro i hi
  have h1 : ¬ 64 + i < 32 := by omega
  have h2 : ¬ 64 + i - 32 < 32 := by omega
  have h3 : 64 + i - 32 - 32 = i := by omega
  simp only [opField, commandWord, BitVec.getLsbD_extractLsb', BitVec.getLsbD_append, hi, h1, h2, h3,
    decide_true, Bool.true_and]
  simp

@[simp] theorem aField_commandWord (op : BitVec 4) (a b : Word) : aField (commandWord op a b) = a := by
  apply BitVec.eq_of_getLsbD_eq
  intro i hi
  have h1 : ¬ 32 + i < 32 := by omega
  have h3 : 32 + i - 32 = i := by omega
  simp only [aField, commandWord, BitVec.getLsbD_extractLsb', BitVec.getLsbD_append, hi, h1, h3]
  simp [hi]

@[simp] theorem bField_commandWord (op : BitVec 4) (a b : Word) : bField (commandWord op a b) = b := by
  apply BitVec.eq_of_getLsbD_eq
  intro i hi
  simp only [bField, commandWord, BitVec.getLsbD_extractLsb', BitVec.getLsbD_append, hi, Nat.zero_add]
  simp [hi]

/-- A word is its three fields (30_encoding.md R60). -/
theorem commandWord_fields (w : CommandWord) : commandWord (opField w) (aField w) (bField w) = w := by
  apply BitVec.eq_of_getLsbD_eq
  intro i hi
  simp only [commandWord, opField, aField, bField, BitVec.getLsbD_append, BitVec.getLsbD_extractLsb']
  by_cases h1 : i < 32
  · simp [h1]
  by_cases h2 : i - 32 < 32
  · have e : 32 + (i - 32) = i := by omega
    simp [h1, h2, e]
  · have e : 64 + (i - 32 - 32) = i := by omega
    have h3 : i - 32 - 32 < 4 := by omega
    simp [h1, h2, h3, e]

/-- The decoder on a word given by its fields (30_encoding.md R65). -/
theorem decode_commandWord (op : BitVec 4) (a b : Word) :
    decode (commandWord op a b) = (selectCommand op.toNat a b).getD (.reject .illegalOpcode) := by
  rw [decode, opField_commandWord, aField_commandWord, bField_commandWord]

/-- Masking a word masks each of its fields. -/
theorem commandWord_and (o p : BitVec 4) (a b c d : Word) :
    commandWord o a b &&& commandWord p c d = commandWord (o &&& p) (a &&& c) (b &&& d) := by
  apply BitVec.eq_of_getLsbD_eq
  intro i hi
  simp only [commandWord, BitVec.getLsbD_and, BitVec.getLsbD_append]
  by_cases h1 : i < 32
  · simp [h1]
  by_cases h2 : i - 32 < 32
  · simp [h1, h2]
  · simp [h1, h2]

theorem opcode_and_ones (o : BitVec 4) : o &&& 0xF#4 = o := by
  revert o
  decide

/-- A zero-extended byte has no bit above bit 7. -/
theorem setWidth_and_high (c : Byte) : c.setWidth 32 &&& 0xFFFFFF00#32 = 0#32 := by
  apply BitVec.eq_of_getLsbD_eq
  intro i hi
  simp only [BitVec.getLsbD_and, BitVec.getLsbD_setWidth]
  by_cases h : i < 8
  · interval_cases i <;> simp
  · rw [BitVec.getLsbD_of_ge c i (by omega)]
    simp

end Sys2Proof
end

