-- ==== Sys2Proof/Laws/State.lean ====
section
/-! SUPPORT. One lemma per field per update of State, so that no later proof unfolds a record update. -/

namespace Sys2Proof.Machine

@[simp] theorem State.writeCrc_crc (s : State) (v : Word) : (s.writeCrc v).crc = v := rfl
@[simp] theorem State.writeCrc_res (s : State) (v : Word) : (s.writeCrc v).res = s.res := rfl
@[simp] theorem State.writeCrc_status (s : State) (v : Word) : (s.writeCrc v).status = s.status := rfl
@[simp] theorem State.writeCrc_table (s : State) (v : Word) : (s.writeCrc v).table = s.table := rfl
@[simp] theorem State.writeCrc_bidx (s : State) (v : Word) : (s.writeCrc v).bidx = s.bidx := rfl
@[simp] theorem State.writeCrc_presented (s : State) (v : Word) : (s.writeCrc v).presented = s.presented := rfl
@[simp] theorem State.writeCrc_resetLine (s : State) (v : Word) : (s.writeCrc v).resetLine = s.resetLine := rfl
@[simp] theorem State.writeCrc_script (s : State) (v : Word) : (s.writeCrc v).script = s.script := rfl
@[simp] theorem State.writeCrc_epoch (s : State) (v : Word) : (s.writeCrc v).epoch = s.epoch := rfl

@[simp] theorem State.writeRes_crc (s : State) (v : Word) : (s.writeRes v).crc = s.crc := rfl
@[simp] theorem State.writeRes_res (s : State) (v : Word) : (s.writeRes v).res = v := rfl
@[simp] theorem State.writeRes_status (s : State) (v : Word) : (s.writeRes v).status = s.status := rfl
@[simp] theorem State.writeRes_table (s : State) (v : Word) : (s.writeRes v).table = s.table := rfl
@[simp] theorem State.writeRes_bidx (s : State) (v : Word) : (s.writeRes v).bidx = s.bidx := rfl
@[simp] theorem State.writeRes_presented (s : State) (v : Word) : (s.writeRes v).presented = s.presented := rfl
@[simp] theorem State.writeRes_resetLine (s : State) (v : Word) : (s.writeRes v).resetLine = s.resetLine := rfl
@[simp] theorem State.writeRes_script (s : State) (v : Word) : (s.writeRes v).script = s.script := rfl
@[simp] theorem State.writeRes_epoch (s : State) (v : Word) : (s.writeRes v).epoch = s.epoch := rfl

@[simp] theorem State.writeStatus_crc (s : State) (v : Word) : (s.writeStatus v).crc = s.crc := rfl
@[simp] theorem State.writeStatus_res (s : State) (v : Word) : (s.writeStatus v).res = s.res := rfl
@[simp] theorem State.writeStatus_status (s : State) (v : Word) : (s.writeStatus v).status = v := rfl
@[simp] theorem State.writeStatus_table (s : State) (v : Word) : (s.writeStatus v).table = s.table := rfl
@[simp] theorem State.writeStatus_bidx (s : State) (v : Word) : (s.writeStatus v).bidx = s.bidx := rfl
@[simp] theorem State.writeStatus_presented (s : State) (v : Word) : (s.writeStatus v).presented = s.presented := rfl
@[simp] theorem State.writeStatus_resetLine (s : State) (v : Word) : (s.writeStatus v).resetLine = s.resetLine := rfl
@[simp] theorem State.writeStatus_script (s : State) (v : Word) : (s.writeStatus v).script = s.script := rfl
@[simp] theorem State.writeStatus_epoch (s : State) (v : Word) : (s.writeStatus v).epoch = s.epoch := rfl

@[simp] theorem State.writeTable_crc (s : State) (v : Vector Word 256) : (s.writeTable v).crc = s.crc := rfl
@[simp] theorem State.writeTable_res (s : State) (v : Vector Word 256) : (s.writeTable v).res = s.res := rfl
@[simp] theorem State.writeTable_status (s : State) (v : Vector Word 256) : (s.writeTable v).status = s.status := rfl
@[simp] theorem State.writeTable_table (s : State) (v : Vector Word 256) : (s.writeTable v).table = v := rfl
@[simp] theorem State.writeTable_bidx (s : State) (v : Vector Word 256) : (s.writeTable v).bidx = s.bidx := rfl
@[simp] theorem State.writeTable_presented (s : State) (v : Vector Word 256) : (s.writeTable v).presented = s.presented := rfl
@[simp] theorem State.writeTable_resetLine (s : State) (v : Vector Word 256) : (s.writeTable v).resetLine = s.resetLine := rfl
@[simp] theorem State.writeTable_script (s : State) (v : Vector Word 256) : (s.writeTable v).script = s.script := rfl
@[simp] theorem State.writeTable_epoch (s : State) (v : Vector Word 256) : (s.writeTable v).epoch = s.epoch := rfl

@[simp] theorem State.writeBidx_crc (s : State) (v : BitVec 9) : (s.writeBidx v).crc = s.crc := rfl
@[simp] theorem State.writeBidx_res (s : State) (v : BitVec 9) : (s.writeBidx v).res = s.res := rfl
@[simp] theorem State.writeBidx_status (s : State) (v : BitVec 9) : (s.writeBidx v).status = s.status := rfl
@[simp] theorem State.writeBidx_table (s : State) (v : BitVec 9) : (s.writeBidx v).table = s.table := rfl
@[simp] theorem State.writeBidx_bidx (s : State) (v : BitVec 9) : (s.writeBidx v).bidx = v := rfl
@[simp] theorem State.writeBidx_presented (s : State) (v : BitVec 9) : (s.writeBidx v).presented = s.presented := rfl
@[simp] theorem State.writeBidx_resetLine (s : State) (v : BitVec 9) : (s.writeBidx v).resetLine = s.resetLine := rfl
@[simp] theorem State.writeBidx_script (s : State) (v : BitVec 9) : (s.writeBidx v).script = s.script := rfl
@[simp] theorem State.writeBidx_epoch (s : State) (v : BitVec 9) : (s.writeBidx v).epoch = s.epoch := rfl

@[simp] theorem State.setPresented_crc (s : State) (v : Option CommandWord) : (s.setPresented v).crc = s.crc := rfl
@[simp] theorem State.setPresented_res (s : State) (v : Option CommandWord) : (s.setPresented v).res = s.res := rfl
@[simp] theorem State.setPresented_status (s : State) (v : Option CommandWord) : (s.setPresented v).status = s.status := rfl
@[simp] theorem State.setPresented_table (s : State) (v : Option CommandWord) : (s.setPresented v).table = s.table := rfl
@[simp] theorem State.setPresented_bidx (s : State) (v : Option CommandWord) : (s.setPresented v).bidx = s.bidx := rfl
@[simp] theorem State.setPresented_presented (s : State) (v : Option CommandWord) : (s.setPresented v).presented = v := rfl
@[simp] theorem State.setPresented_resetLine (s : State) (v : Option CommandWord) : (s.setPresented v).resetLine = s.resetLine := rfl
@[simp] theorem State.setPresented_script (s : State) (v : Option CommandWord) : (s.setPresented v).script = s.script := rfl
@[simp] theorem State.setPresented_epoch (s : State) (v : Option CommandWord) : (s.setPresented v).epoch = s.epoch := rfl

@[simp] theorem State.setResetLine_crc (s : State) (v : Bool) : (s.setResetLine v).crc = s.crc := rfl
@[simp] theorem State.setResetLine_res (s : State) (v : Bool) : (s.setResetLine v).res = s.res := rfl
@[simp] theorem State.setResetLine_status (s : State) (v : Bool) : (s.setResetLine v).status = s.status := rfl
@[simp] theorem State.setResetLine_table (s : State) (v : Bool) : (s.setResetLine v).table = s.table := rfl
@[simp] theorem State.setResetLine_bidx (s : State) (v : Bool) : (s.setResetLine v).bidx = s.bidx := rfl
@[simp] theorem State.setResetLine_presented (s : State) (v : Bool) : (s.setResetLine v).presented = s.presented := rfl
@[simp] theorem State.setResetLine_resetLine (s : State) (v : Bool) : (s.setResetLine v).resetLine = v := rfl
@[simp] theorem State.setResetLine_script (s : State) (v : Bool) : (s.setResetLine v).script = s.script := rfl
@[simp] theorem State.setResetLine_epoch (s : State) (v : Bool) : (s.setResetLine v).epoch = s.epoch := rfl

@[simp] theorem State.setScript_crc (s : State) (v : List HostInput) : (s.setScript v).crc = s.crc := rfl
@[simp] theorem State.setScript_res (s : State) (v : List HostInput) : (s.setScript v).res = s.res := rfl
@[simp] theorem State.setScript_status (s : State) (v : List HostInput) : (s.setScript v).status = s.status := rfl
@[simp] theorem State.setScript_table (s : State) (v : List HostInput) : (s.setScript v).table = s.table := rfl
@[simp] theorem State.setScript_bidx (s : State) (v : List HostInput) : (s.setScript v).bidx = s.bidx := rfl
@[simp] theorem State.setScript_presented (s : State) (v : List HostInput) : (s.setScript v).presented = s.presented := rfl
@[simp] theorem State.setScript_resetLine (s : State) (v : List HostInput) : (s.setScript v).resetLine = s.resetLine := rfl
@[simp] theorem State.setScript_script (s : State) (v : List HostInput) : (s.setScript v).script = v := rfl
@[simp] theorem State.setScript_epoch (s : State) (v : List HostInput) : (s.setScript v).epoch = s.epoch := rfl

@[simp] theorem State.setEpoch_crc (s : State) (v : Nat) : (s.setEpoch v).crc = s.crc := rfl
@[simp] theorem State.setEpoch_res (s : State) (v : Nat) : (s.setEpoch v).res = s.res := rfl
@[simp] theorem State.setEpoch_status (s : State) (v : Nat) : (s.setEpoch v).status = s.status := rfl
@[simp] theorem State.setEpoch_table (s : State) (v : Nat) : (s.setEpoch v).table = s.table := rfl
@[simp] theorem State.setEpoch_bidx (s : State) (v : Nat) : (s.setEpoch v).bidx = s.bidx := rfl
@[simp] theorem State.setEpoch_presented (s : State) (v : Nat) : (s.setEpoch v).presented = s.presented := rfl
@[simp] theorem State.setEpoch_resetLine (s : State) (v : Nat) : (s.setEpoch v).resetLine = s.resetLine := rfl
@[simp] theorem State.setEpoch_script (s : State) (v : Nat) : (s.setEpoch v).script = s.script := rfl
@[simp] theorem State.setEpoch_epoch (s : State) (v : Nat) : (s.setEpoch v).epoch = v := rfl

@[simp] theorem initStep_crc (s : State) : (initStep s).crc = s.crc := rfl
@[simp] theorem initStep_res (s : State) : (initStep s).res = s.res := rfl
@[simp] theorem initStep_status (s : State) : (initStep s).status = if s.bidx + 1#9 = 256#9 then setReady s.status else s.status := rfl
@[simp] theorem initStep_table (s : State) : (initStep s).table = writeEntry s.table (initIndex s.bidx) (tableEntry (initIndex s.bidx)) := rfl
@[simp] theorem initStep_bidx (s : State) : (initStep s).bidx = s.bidx + 1#9 := rfl
@[simp] theorem initStep_presented (s : State) : (initStep s).presented = s.presented := rfl
@[simp] theorem initStep_resetLine (s : State) : (initStep s).resetLine = s.resetLine := rfl
@[simp] theorem initStep_script (s : State) : (initStep s).script = s.script := rfl
@[simp] theorem initStep_epoch (s : State) : (initStep s).epoch = s.epoch := rfl

@[simp] theorem initCollapsed_crc (s : State) : (initCollapsed s).crc = s.crc := rfl
@[simp] theorem initCollapsed_res (s : State) : (initCollapsed s).res = s.res := rfl
@[simp] theorem initCollapsed_status (s : State) : (initCollapsed s).status = setReady s.status := rfl
@[simp] theorem initCollapsed_table (s : State) : (initCollapsed s).table = builtTable := rfl
@[simp] theorem initCollapsed_bidx (s : State) : (initCollapsed s).bidx = 256#9 := rfl
@[simp] theorem initCollapsed_presented (s : State) : (initCollapsed s).presented = s.presented := rfl
@[simp] theorem initCollapsed_resetLine (s : State) : (initCollapsed s).resetLine = s.resetLine := rfl
@[simp] theorem initCollapsed_script (s : State) : (initCollapsed s).script = s.script := rfl
@[simp] theorem initCollapsed_epoch (s : State) : (initCollapsed s).epoch = s.epoch := rfl

@[simp] theorem assertReset_crc (s : State) : (assertReset s).crc = 0xFFFFFFFF#32 := rfl
@[simp] theorem assertReset_res (s : State) : (assertReset s).res = 0x00000000#32 := rfl
@[simp] theorem assertReset_status (s : State) : (assertReset s).status = 0x00000000#32 := rfl
@[simp] theorem assertReset_table (s : State) : (assertReset s).table = unbuiltTable (s.epoch + 1) := rfl
@[simp] theorem assertReset_bidx (s : State) : (assertReset s).bidx = 0#9 := rfl
@[simp] theorem assertReset_presented (s : State) : (assertReset s).presented = none := rfl
@[simp] theorem assertReset_resetLine (s : State) : (assertReset s).resetLine = true := rfl
@[simp] theorem assertReset_script (s : State) : (assertReset s).script = s.script := rfl
@[simp] theorem assertReset_epoch (s : State) : (assertReset s).epoch = s.epoch + 1 := rfl

@[simp] theorem releaseReset_crc (s : State) : (releaseReset s).crc = s.crc := rfl
@[simp] theorem releaseReset_res (s : State) : (releaseReset s).res = s.res := rfl
@[simp] theorem releaseReset_status (s : State) : (releaseReset s).status = s.status := rfl
@[simp] theorem releaseReset_table (s : State) : (releaseReset s).table = s.table := rfl
@[simp] theorem releaseReset_bidx (s : State) : (releaseReset s).bidx = s.bidx := rfl
@[simp] theorem releaseReset_presented (s : State) : (releaseReset s).presented = s.presented := rfl
@[simp] theorem releaseReset_resetLine (s : State) : (releaseReset s).resetLine = false := rfl
@[simp] theorem releaseReset_script (s : State) : (releaseReset s).script = s.script := rfl
@[simp] theorem releaseReset_epoch (s : State) : (releaseReset s).epoch = s.epoch := rfl

@[simp] theorem reject_crc (code : RejectCode) (s : State) : (reject code s).crc = s.crc := rfl
@[simp] theorem reject_res (code : RejectCode) (s : State) : (reject code s).res = s.res := rfl
@[simp] theorem reject_status (code : RejectCode) (s : State) : (reject code s).status = recordRejection s.status code := rfl
@[simp] theorem reject_table (code : RejectCode) (s : State) : (reject code s).table = s.table := rfl
@[simp] theorem reject_bidx (code : RejectCode) (s : State) : (reject code s).bidx = s.bidx := rfl
@[simp] theorem reject_presented (code : RejectCode) (s : State) : (reject code s).presented = s.presented := rfl
@[simp] theorem reject_resetLine (code : RejectCode) (s : State) : (reject code s).resetLine = s.resetLine := rfl
@[simp] theorem reject_script (code : RejectCode) (s : State) : (reject code s).script = s.script := rfl
@[simp] theorem reject_epoch (code : RejectCode) (s : State) : (reject code s).epoch = s.epoch := rfl

@[simp] theorem State.resOutput_eq (s : State) : s.resOutput = s.res := rfl
@[simp] theorem State.statusOutput_eq (s : State) : s.statusOutput = s.status := rfl

/-- READY is read from STATUS alone. -/
theorem State.ready_congr {s t : State} (h : t.status = s.status) : t.ready = s.ready := by
  simp only [State.ready, h]

end Sys2Proof.Machine
end

