-- ==== Sys2Proof/Laws/Status.lean ====
section
/-! SUPPORT. The fields of STATUS after each of its writes, bit by bit (10_state.md R23). -/

namespace Sys2Proof.Machine

/-- Every bit of a STATUS with READY set. -/
theorem setReady_getLsbD (st : Word) (k : Nat) : (setReady st).getLsbD k = (st.getLsbD k || decide (k = 0)) := by
  by_cases h : k < 32
  · simp only [setReady, BitVec.getLsbD_or]
    congr 1
    interval_cases k <;> rfl
  · rw [BitVec.getLsbD_of_ge _ _ (by omega), BitVec.getLsbD_of_ge _ _ (by omega)]
    simp only [Bool.false_or]
    exact (decide_eq_false (by omega)).symm

/-- Every bit of a STATUS with ERR set. -/
theorem setErr_getLsbD (st : Word) (k : Nat) : (setErr st).getLsbD k = (st.getLsbD k || decide (k = 1)) := by
  by_cases h : k < 32
  · simp only [setErr, BitVec.getLsbD_or]
    congr 1
    interval_cases k <;> rfl
  · rw [BitVec.getLsbD_of_ge _ _ (by omega), BitVec.getLsbD_of_ge _ _ (by omega)]
    simp only [Bool.false_or]
    exact (decide_eq_false (by omega)).symm

/-- Every bit of a STATUS with ECODE written. -/
theorem setEcode_getLsbD (st : Word) (e : BitVec 4) (k : Nat) :
    (setEcode st e).getLsbD k = if 4 ≤ k ∧ k ≤ 7 then e.getLsbD (k - 4) else st.getLsbD k := by
  by_cases h : k < 32
  · simp only [setEcode, BitVec.getLsbD_or, BitVec.getLsbD_and, BitVec.getLsbD_shiftLeft, BitVec.getLsbD_setWidth]
    interval_cases k <;> simp
  · rw [BitVec.getLsbD_of_ge _ _ (by omega), if_neg (by omega), BitVec.getLsbD_of_ge _ _ (by omega)]

theorem ecodeField_ext {a b : Word} (h : ∀ k, 4 ≤ k → k ≤ 7 → a.getLsbD k = b.getLsbD k) :
    ecodeField a = ecodeField b := by
  apply BitVec.eq_of_getLsbD_eq
  intro i hi
  simp only [ecodeField, BitVec.getLsbD_extractLsb']
  rw [h (4 + i) (by omega) (by omega)]

@[simp] theorem ecodeField_setEcode (st : Word) (e : BitVec 4) : ecodeField (setEcode st e) = e := by
  apply BitVec.eq_of_getLsbD_eq
  intro i hi
  simp only [ecodeField, BitVec.getLsbD_extractLsb', setEcode_getLsbD]
  rw [if_pos (by omega)]
  simp [hi]

@[simp] theorem ecodeField_setErr (st : Word) : ecodeField (setErr st) = ecodeField st :=
  ecodeField_ext fun k h4 _ => by simp [setErr_getLsbD]; omega

@[simp] theorem ecodeField_setReady (st : Word) : ecodeField (setReady st) = ecodeField st :=
  ecodeField_ext fun k h4 _ => by simp [setReady_getLsbD]; omega

@[simp] theorem errBit_setErr (st : Word) : errBit (setErr st) = true := by
  exact (setErr_getLsbD st _).trans (by simp)

@[simp] theorem errBit_setReady (st : Word) : errBit (setReady st) = errBit st := by
  exact (setReady_getLsbD st _).trans (by simp [errBit])

@[simp] theorem errBit_setEcode (st : Word) (e : BitVec 4) : errBit (setEcode st e) = errBit st := by
  exact (setEcode_getLsbD st e _).trans (if_neg (by omega))

@[simp] theorem readyBit_setReady (st : Word) : readyBit (setReady st) = true := by
  exact (setReady_getLsbD st _).trans (by simp)

@[simp] theorem readyBit_setErr (st : Word) : readyBit (setErr st) = readyBit st := by
  exact (setErr_getLsbD st _).trans (by simp [readyBit])

@[simp] theorem readyBit_setEcode (st : Word) (e : BitVec 4) : readyBit (setEcode st e) = readyBit st := by
  exact (setEcode_getLsbD st e _).trans (if_neg (by omega))

/-- A rejection never touches READY (60_exceptions.md R142). -/
@[simp] theorem readyBit_recordRejection (st : Word) (code : RejectCode) :
    readyBit (recordRejection st code) = readyBit st := by
  unfold recordRejection
  split <;> simp

/-- A rejection sets ERR (60_exceptions.md R142). -/
@[simp] theorem errBit_recordRejection (st : Word) (code : RejectCode) :
    errBit (recordRejection st code) = true := by
  unfold recordRejection
  split <;> simp

/-- A rejection records its code if none was recorded (60_exceptions.md R142). -/
theorem ecodeField_recordRejection (st : Word) (code : RejectCode) :
    ecodeField (recordRejection st code) = if ecodeField st = 0#4 then ecodeOf code else ecodeField st := by
  unfold recordRejection
  split <;> simp

/-- The bits outside ERR and ECODE are kept by a rejection. -/
theorem recordRejection_getLsbD (st : Word) (code : RejectCode) {k : Nat} (h1 : k ≠ 1) (h4 : ¬(4 ≤ k ∧ k ≤ 7)) :
    (recordRejection st code).getLsbD k = st.getLsbD k := by
  unfold recordRejection
  split
  · rw [setEcode_getLsbD, if_neg h4, setErr_getLsbD]
    simp [h1]
  · rw [setErr_getLsbD]
    simp [h1]

/-- The reserved bits are zero exactly when each of them is. -/
theorem reservedBits_eq_zero_iff (st : Word) :
    reservedBits st = 0#32 ↔ ∀ k, k ≠ 0 → k ≠ 1 → ¬(4 ≤ k ∧ k ≤ 7) → st.getLsbD k = false := by
  constructor
  · intro h k h0 h1 h4
    by_cases hk : k < 32
    · have hb : (reservedBits st).getLsbD k = false := by rw [h]; simp
      simp only [reservedBits, BitVec.getLsbD_and] at hb
      interval_cases k <;> simp_all
    · exact BitVec.getLsbD_of_ge _ _ (by omega)
  · intro h
    apply BitVec.eq_of_getLsbD_eq
    intro k hk
    simp only [reservedBits, BitVec.getLsbD_and]
    by_cases h0 : k = 0
    · subst h0; simp
    by_cases h1 : k = 1
    · subst h1; simp
    by_cases h4 : 4 ≤ k ∧ k ≤ 7
    · obtain ⟨ha, hb⟩ := h4
      interval_cases k <;> simp
    · rw [h k h0 h1 h4]; simp

@[simp] theorem State.ready_initCollapsed (s : State) : (initCollapsed s).ready = true := by
  simp [State.ready]

@[simp] theorem State.ready_reject (code : RejectCode) (s : State) : (reject code s).ready = s.ready := by
  simp [State.ready]

end Sys2Proof.Machine
end

