-- ==== Sys2Proof/Laws/Operands.lean ====
section
/-! SUPPORT. What the bit primitives and operand forms are, bit by bit and as numbers. -/

namespace Sys2Proof.Machine

@[simp] theorem bitXor_getLsbD (a b : Word) (i : Nat) :
    (bitXor a b).getLsbD i = (a.getLsbD i ^^ b.getLsbD i) := BitVec.getLsbD_xor

@[simp] theorem bitAnd_getLsbD (a b : Word) (i : Nat) :
    (bitAnd a b).getLsbD i = (a.getLsbD i && b.getLsbD i) := BitVec.getLsbD_and

@[simp] theorem shr_getLsbD (a : Word) (n i : Nat) : (shr a n).getLsbD i = a.getLsbD (n + i) :=
  BitVec.getLsbD_ushiftRight a n i

/-- The right shift is the floor of the division by 2^n (40_bitops.md R82). -/
theorem shr_toNat (a : Word) (n : Nat) : (shr a n).toNat = a.toNat / 2 ^ n := by
  simp only [shr, BitVec.toNat_ushiftRight, Nat.shiftRight_eq_div_pow]

/-- A count of the width or more shifts everything out (40_bitops.md R82). -/
theorem shr_of_width_le (a : Word) {n : Nat} (h : 32 ≤ n) : shr a n = 0#32 :=
  BitVec.ushiftRight_eq_zero h

/-- The 24-bit mask never changes a value shifted by 8 (42_checksum.md R94). -/
theorem bitAnd_shr_mask24 (a : Word) : bitAnd (shr a 8) Config.mask24 = shr a 8 := by
  apply BitVec.eq_of_toNat_eq
  have h := a.isLt
  have hm : Config.mask24.toNat = 2 ^ 24 - 1 := rfl
  simp only [bitAnd, BitVec.toNat_and, hm, Nat.and_two_pow_sub_one_eq_mod, shr_toNat]
  omega

@[simp] theorem zext32_toNat (c : Byte) : (zext32 c).toNat = c.toNat := by
  simp only [zext32, BitVec.toNat_setWidth]
  have := c.isLt
  omega

theorem lowByteOf_eq_setWidth (a : Word) : lowByteOf a = a.setWidth 8 := by
  ext i hi
  simp [lowByteOf]

/-- The low byte of a byte zero-extended is the byte. -/
@[simp] theorem lowByteOf_zext (c : Byte) : lowByteOf (c.setWidth 32) = c := by
  ext i hi
  have : i < 32 := by omega
  simp [lowByteOf, hi, this]

/-- The index is the low byte of CRC xored with the message byte (42_checksum.md R94). -/
theorem crcIndex_eq (crc : Word) (c : Byte) : crcIndex crc c = crc.setWidth 8 ^^^ c := by
  ext i hi
  have h32 : i < 32 := by omega
  have hm : (0xFF#32).getLsbD i = true := by interval_cases i <;> rfl
  simp [crcIndex, lowByteOf, bitAnd, bitXor, zext32, Config.byteMask, hi, h32, hm]

@[simp] theorem initIndex_toNat (b : BitVec 9) : (initIndex b).toNat = b.toNat % 256 := by
  simp [initIndex]

end Sys2Proof.Machine
end

