-- ==== Sys2Proof/Laws/Table.lean ====
section
/-! SUPPORT. Reading TABLE after a write, and the built table's entries. -/

namespace Sys2Proof.Machine

@[simp] theorem readEntry_writeEntry_same (t : Vector Word 256) (i : Byte) (v : Word) :
    readEntry (writeEntry t i v) i = v := by
  simp only [readEntry, writeEntry, Vector.getElem_set_self]

theorem readEntry_writeEntry_other (t : Vector Word 256) {i j : Byte} (v : Word) (h : i.toNat ≠ j.toNat) :
    readEntry (writeEntry t i v) j = readEntry t j := by
  simp only [readEntry, writeEntry]
  exact Vector.getElem_set_ne _ _ h

@[simp] theorem readEntry_builtTable (i : Byte) : readEntry builtTable i = tableEntry i := by
  simp [readEntry, builtTable]

@[simp] theorem readEntry_unbuiltTable (e : Nat) (i : Byte) :
    readEntry (unbuiltTable e) i = Config.unbuiltEntry e i.toNat := by
  simp only [readEntry, unbuiltTable, Vector.getElem_ofFn]

/-- Two tables that read alike at every index are the same table. -/
theorem table_ext {t u : Vector Word 256} (h : ∀ i : Byte, readEntry t i = readEntry u i) : t = u := by
  apply Vector.ext
  intro i hi
  have := h (BitVec.ofNat 8 i)
  simp only [readEntry, BitVec.toNat_ofNat] at this
  have hm : i % 2 ^ 8 = i := Nat.mod_eq_of_lt (by omega)
  simpa only [hm] using this

/-- Reading by index with the bound looked up is reading the entry. -/
theorem table_getElem?_eq (t : Vector Word 256) (i : Byte) : t[i.toNat]? = some (readEntry t i) := by
  rw [readEntry, Vector.getElem?_eq_getElem]

end Sys2Proof.Machine
end

