-- ==== Sys2Proof/Laws/Exec.lean ====
section
/-! SUPPORT. What each arm of exec answers, and what every command leaves alone. -/

namespace Sys2Proof.Machine

@[simp] theorem exec_nop (s : State) : exec .nop s = .next s := rfl
@[simp] theorem exec_xor (a b : Word) (s : State) : exec (.xor a b) s = .next (s.writeRes (bitXor a b)) := rfl
@[simp] theorem exec_and (a b : Word) (s : State) : exec (.and a b) s = .next (s.writeRes (bitAnd a b)) := rfl
@[simp] theorem exec_shr (a n : Word) (s : State) : exec (.shr a n) s = .next (s.writeRes (shr a n.toNat)) := rfl
@[simp] theorem exec_crcinit (s : State) : exec .crcinit s = .next (s.writeCrc 0xFFFFFFFF#32) := rfl
@[simp] theorem exec_crcbyte (c : Byte) (s : State) :
    exec (.crcbyte c) s = .next (s.writeCrc (crcUpdate s.table s.crc c)) := rfl
@[simp] theorem exec_crcread (s : State) : exec .crcread s = .next (s.writeRes s.crc) := rfl
@[simp] theorem exec_tread (i : Byte) (s : State) : exec (.tread i) s = .next (s.writeRes (readEntry s.table i)) := rfl

/-- On a built table the CRC update is the checksum's loop body (42_checksum.md R94, R97). -/
theorem crcUpdate_of_built {t : Vector Word 256} (h : ∀ i, readEntry t i = tableEntry i) (crc : Word) (c : Byte) :
    crcUpdate t crc c = checksumStep crc c := by
  rw [crcUpdate, checksumStep, h, bitAnd_shr_mask24]

/-- Only RES or only CRC is written by a command, and it always answers: the one case analysis over Instr that every
frame rests on. -/
theorem exec_writes (i : Instr) (s : State) :
    (∃ v, exec i s = .next (s.writeRes v)) ∨ (∃ v, exec i s = .next (s.writeCrc v)) := by
  cases i with
  | nop => exact .inl ⟨s.res, rfl⟩
  | xor a b => exact .inl ⟨_, rfl⟩
  | and a b => exact .inl ⟨_, rfl⟩
  | shr a n => exact .inl ⟨_, rfl⟩
  | crcinit => exact .inr ⟨_, rfl⟩
  | crcbyte c => exact .inr ⟨_, rfl⟩
  | crcread => exact .inl ⟨_, rfl⟩
  | tread k => exact .inl ⟨_, rfl⟩

/-- What accepting a word does, in one of three ways: it writes RES, or CRC, or is rejected. -/
theorem acceptWord_cases (w : CommandWord) (s : State) :
    (∃ i v, decode w = .execute i ∧ acceptWord w s = .next (s.writeRes v)) ∨
    (∃ i v, decode w = .execute i ∧ acceptWord w s = .next (s.writeCrc v)) ∨
    (∃ code, decode w = .reject code ∧ acceptWord w s = .next (reject code s)) := by
  unfold acceptWord
  cases h : decode w with
  | execute i =>
    obtain ⟨v, hv⟩ | ⟨v, hv⟩ := exec_writes i s
    · exact .inl ⟨i, v, rfl, hv⟩
    · exact .inr (.inl ⟨i, v, rfl, hv⟩)
  | reject code => exact .inr (.inr ⟨code, rfl, rfl⟩)

/-- A word that is accepted takes its effect in one step (20_memory.md R47). -/
theorem acceptWord_next (w : CommandWord) (s : State) : acceptWord w s = .next (afterWord w s) := by
  obtain ⟨_, _, _, h⟩ | ⟨_, _, _, h⟩ | ⟨_, _, h⟩ := acceptWord_cases w s <;> rw [afterWord, h]

theorem afterWord_of_execute {w : CommandWord} {i : Instr} (h : decode w = .execute i) (s : State) :
    exec i s = .next (afterWord w s) := by
  have := acceptWord_next w s
  simpa only [acceptWord, h] using this

theorem afterWord_of_reject {w : CommandWord} {code : RejectCode} (h : decode w = .reject code) (s : State) :
    afterWord w s = reject code s := by
  have := acceptWord_next w s
  simpa only [acceptWord, h, Host.Outcome.next.injEq, eq_comm] using this

/-- What accepting a word never touches (44_control.md R112; 60_exceptions.md R142). -/
theorem afterWord_frame (w : CommandWord) (s : State) :
    (afterWord w s).table = s.table ∧ (afterWord w s).bidx = s.bidx ∧ (afterWord w s).ready = s.ready ∧
      SameInterface s (afterWord w s) := by
  have h := acceptWord_next w s
  obtain ⟨_, _, _, h'⟩ | ⟨_, _, _, h'⟩ | ⟨_, _, h'⟩ := acceptWord_cases w s <;>
    · rw [h', Host.Outcome.next.injEq] at h
      rw [← h]
      simp [SameInterface, State.ready]

@[simp] theorem afterWord_table (w : CommandWord) (s : State) : (afterWord w s).table = s.table :=
  (afterWord_frame w s).1
@[simp] theorem afterWord_bidx (w : CommandWord) (s : State) : (afterWord w s).bidx = s.bidx :=
  (afterWord_frame w s).2.1
@[simp] theorem afterWord_ready (w : CommandWord) (s : State) : (afterWord w s).ready = s.ready :=
  (afterWord_frame w s).2.2.1
@[simp] theorem afterWord_presented (w : CommandWord) (s : State) : (afterWord w s).presented = s.presented :=
  (afterWord_frame w s).2.2.2.1
@[simp] theorem afterWord_resetLine (w : CommandWord) (s : State) : (afterWord w s).resetLine = s.resetLine :=
  (afterWord_frame w s).2.2.2.2.1
@[simp] theorem afterWord_script (w : CommandWord) (s : State) : (afterWord w s).script = s.script :=
  (afterWord_frame w s).2.2.2.2.2.1

/-- A word's effect does not depend on what the host does later. -/
theorem afterWord_setScript (w : CommandWord) (s : State) (l : List HostInput) :
    afterWord w (s.setScript l) = (afterWord w s).setScript l := by
  unfold afterWord acceptWord
  cases decode w with
  | execute i => cases i <;> rfl
  | reject code => rfl

/-- A word's effect does not depend on the interface it came through. -/
theorem afterWord_setPresented (w : CommandWord) (s : State) (p : Option CommandWord) :
    afterWord w (s.setPresented p) = (afterWord w s).setPresented p := by
  unfold afterWord acceptWord
  cases decode w with
  | execute i => cases i <;> rfl
  | reject code => rfl

end Sys2Proof.Machine
end

