-- ==== Sys2Proof/Laws/Interface.lean ====
section
/-! SUPPORT. What a step is, case by case: reset, hold, init step, acceptance; and runs of steps. Later proofs cite
these and do not unfold `takeStep`. -/

namespace Sys2Proof.Machine

theorem State.accepting_iff (s : State) :
    s.accepting = true ↔ s.resetLine = false ∧ 256 ≤ s.bidx.toNat ∧ s.ready = true := by
  simp [State.accepting, and_assoc]

/-- While reset is asserted the block takes no step (70_reset_and_hazards.md R160). -/
theorem blockStep_of_reset {s : State} (h : s.resetLine = true) : blockStep s = .next s := by
  simp [blockStep, h]

/-- While BIDX < 256 the block's step is the init sequencer's (70_reset_and_hazards.md R162). -/
theorem blockStep_of_init {s : State} (h : s.resetLine = false) (hb : s.bidx.toNat < 256) :
    blockStep s = .next (initStep s) := by
  simp [blockStep, h, hb]

/-- READY = 0 with no init step enabled, a state no run reaches: the block waits (log 8). -/
theorem blockStep_of_stuck {s : State} (h : s.resetLine = false) (hb : 256 ≤ s.bidx.toNat) (hr : s.ready = false) :
    blockStep s = .next s := by
  simp [blockStep, h, hr, Nat.not_lt.mpr hb]

theorem blockStep_of_accepting {s : State} (h : s.accepting = true) : blockStep s = acceptPresented s := by
  obtain ⟨h1, h2, h3⟩ := s.accepting_iff.mp h
  simp [blockStep, h1, h3, Nat.not_lt.mpr h2]

/-- Accepting with a word presented: its effect, the interface cleared. -/
theorem blockStep_accepts {s : State} {w : CommandWord} (h : s.accepting = true) (hp : s.presented = some w) :
    blockStep s = .next (afterWord w (s.setPresented none)) := by
  rw [blockStep_of_accepting h, acceptPresented, hp]
  exact acceptWord_next w _

/-- Accepting with nothing presented: the block waits (70_reset_and_hazards.md R165). -/
theorem blockStep_waits {s : State} (h : s.accepting = true) (hp : s.presented = none) : blockStep s = .next s := by
  rw [blockStep_of_accepting h, acceptPresented, hp]

@[simp] theorem accepting_setScript (s : State) (l : List HostInput) : (s.setScript l).accepting = s.accepting := rfl

@[simp] theorem accepting_setPresented (s : State) (p : Option CommandWord) :
    (s.setPresented p).accepting = s.accepting := rfl

@[simp] theorem ready_setScript (s : State) (l : List HostInput) : (s.setScript l).ready = s.ready := rfl

@[simp] theorem ready_setPresented (s : State) (p : Option CommandWord) : (s.setPresented p).ready = s.ready := rfl

/-- A word's effect leaves the block accepting. -/
@[simp] theorem accepting_afterWord (w : CommandWord) (s : State) : (afterWord w s).accepting = s.accepting := by
  rw [Bool.eq_iff_iff, State.accepting_iff, State.accepting_iff]
  simp

/-- The five things a block's step can be. -/
theorem blockStep_cases (s : State) :
    (s.resetLine = true ∧ blockStep s = .next s) ∨
    (s.resetLine = false ∧ s.bidx.toNat < 256 ∧ blockStep s = .next (initStep s)) ∨
    (s.resetLine = false ∧ 256 ≤ s.bidx.toNat ∧ s.ready = false ∧ blockStep s = .next s) ∨
    (s.accepting = true ∧ s.presented = none ∧ blockStep s = .next s) ∨
    (∃ w, s.accepting = true ∧ s.presented = some w ∧ blockStep s = .next (afterWord w (s.setPresented none))) := by
  by_cases hl : s.resetLine = true
  · exact .inl ⟨hl, blockStep_of_reset hl⟩
  have hl : s.resetLine = false := by simpa using hl
  by_cases hb : s.bidx.toNat < 256
  · exact .inr (.inl ⟨hl, hb, blockStep_of_init hl hb⟩)
  have hb : 256 ≤ s.bidx.toNat := by omega
  cases hr : s.ready with
  | false => exact .inr (.inr (.inl ⟨hl, hb, rfl, blockStep_of_stuck hl hb hr⟩))
  | true =>
    have ha : s.accepting = true := s.accepting_iff.mpr ⟨hl, hb, hr⟩
    cases hp : s.presented with
    | none => exact .inr (.inr (.inr (.inl ⟨ha, rfl, blockStep_waits ha hp⟩)))
    | some w => exact .inr (.inr (.inr (.inr ⟨w, ha, rfl, blockStep_accepts ha hp⟩)))

/-- Everything the host's move can be before the block's own step: the block steps on a state in which only the
interface has moved on, or reset acts. -/
theorem step_cases (s : State) :
    (∃ rest, s.script = .assertReset :: rest ∧ step s = .next (assertReset (s.setScript rest))) ∨
    (∃ rest, s.script = .releaseReset :: rest ∧ s.resetLine = true ∧
      step s = .next (releaseReset (s.setScript rest))) ∨
    (∃ w rest, s.script = .present w :: rest ∧ s.resetLine = true ∧ step s = .next (s.setScript rest)) ∨
    (∃ w rest, s.script = .present w :: rest ∧ s.resetLine = false ∧ s.presented = none ∧
      step s = blockStep ((s.setScript rest).setPresented (some w))) ∨
    (∃ v w rest, s.script = .present w :: rest ∧ s.resetLine = false ∧ s.presented = some v ∧
      step s = blockStep s) ∨
    ((s.script = [] ∨ s.script.head? = some .idle ∨ (s.script.head? = some .releaseReset ∧ s.resetLine = false)) ∧
      step s = blockStep (s.setScript s.script.tail)) := by
  cases h : s.script with
  | nil =>
    refine .inr (.inr (.inr (.inr (.inr ⟨.inl rfl, ?_⟩))))
    have : s.setScript [].tail = s := by cases s; simp_all [State.setScript]
    rw [this, step, takeStep, h]
  | cons e rest =>
    cases e with
    | idle => exact .inr (.inr (.inr (.inr (.inr ⟨.inr (.inl rfl), by rw [step, takeStep, h]; rfl⟩))))
    | assertReset => exact .inl ⟨rest, rfl, by rw [step, takeStep, h]⟩
    | releaseReset =>
      cases hl : s.resetLine with
      | true => exact .inr (.inl ⟨rest, rfl, rfl, by rw [step, takeStep, h]; simp [hostReleases, hl]⟩)
      | false =>
        refine .inr (.inr (.inr (.inr (.inr ⟨.inr (.inr ⟨rfl, rfl⟩), ?_⟩))))
        rw [step, takeStep, h]
        simp [hostReleases, hl]
    | present w =>
      cases hl : s.resetLine with
      | true => exact .inr (.inr (.inl ⟨w, rest, rfl, rfl, by rw [step, takeStep, h]; simp [hostPresents, hl]⟩))
      | false =>
        cases hp : s.presented with
        | none =>
          exact .inr (.inr (.inr (.inl ⟨w, rest, rfl, rfl, rfl, by rw [step, takeStep, h]; simp [hostPresents, hl, hp]⟩)))
        | some v =>
          exact .inr (.inr (.inr (.inr (.inl ⟨v, w, rest, rfl, rfl, rfl, by rw [step, takeStep, h]; simp [hostPresents, hl, hp]⟩))))

/-- A word presented to a block that accepts is run in that step. -/
theorem step_present {s : State} {w : CommandWord} {rest : List HostInput} (ha : s.accepting = true)
    (hp : s.presented = none) (hs : s.script = .present w :: rest) :
    step s = .next ((afterWord w s).setScript rest) := by
  have hl := (s.accepting_iff.mp ha).1
  rw [step, takeStep, hs]
  simp only [hostPresents, hl, hp, Option.isSome_none, Bool.false_eq_true, if_false]
  rw [blockStep_accepts (w := w) (by simpa using ha) rfl]
  have : (((s.setScript rest).setPresented (some w)).setPresented none) = s.setScript rest := by
    cases s; simp_all [State.setScript, State.setPresented]
  rw [this, afterWord_setScript]

@[simp] theorem run_zero (s : State) : Host.Core.run core 0 s = .next s := rfl

/-- One step, then the rest of the run. -/
theorem run_succ {s t : State} (h : step s = .next t) (k : Nat) :
    Host.Core.run core (k + 1) s = Host.Core.run core k t := by
  have h' : core.step s = .next t := h
  have e := Host.Core.run.eq_2 core s k
  rw [h'] at e
  exact e

/-- A run in two parts. -/
theorem run_add {s t : State} {k : Nat} (h : Host.Core.run core k s = .next t) (m : Nat) :
    Host.Core.run core (k + m) s = Host.Core.run core m t := by
  induction k generalizing s with
  | zero => cases h; rw [Nat.zero_add]
  | succ k ih =>
    have e := Host.Core.run.eq_2 core s k
    rw [Nat.succ_add, Host.Core.run.eq_2 core s (k + m)]
    cases hs : core.step s with
    | next u => rw [hs] at e; exact ih (e.symm.trans h)
    | fault r => cases r
    | refused r => rw [hs] at e; cases e.symm.trans h

end Sys2Proof.Machine
end

