-- ==== Sys2Proof/Laws/Invariant.lean ====
section
/-! SUPPORT. What the invariant depends on, and states that meet it. -/

namespace Sys2Proof.Machine

/-- The invariant is about STATUS, TABLE and BIDX alone. -/
theorem State.Inv.congr {s t : State} (h : s.Inv) (hs : t.status = s.status) (ht : t.table = s.table)
    (hb : t.bidx = s.bidx) : t.Inv where
  reserved_zero := by rw [hs]; exact h.reserved_zero
  err_iff := by rw [hs]; exact h.err_iff
  ecode_legal := by rw [hs]; exact h.ecode_legal
  bidx_le := by rw [hb]; exact h.bidx_le
  ready_iff := by rw [State.ready_congr hs, hb]; exact h.ready_iff
  built := by rw [ht, hb]; exact h.built

/-- A ready state that meets the invariant has the whole table (70_reset_and_hazards.md R163). -/
theorem State.Inv.tableBuilt {s : State} (h : s.Inv) (hr : s.ready = true) : s.TableBuilt := fun i =>
  h.built i (by have := h.ready_iff.mp hr; have := i.isLt; omega)

/-- A state that is not ready and meets the invariant has an init step to take. -/
theorem State.Inv.bidx_lt {s : State} (h : s.Inv) (hr : s.ready = false) : s.bidx.toNat < 256 := by
  have h1 := h.bidx_le
  have h2 := h.ready_iff
  rw [hr] at h2
  simp at h2
  omega

/-- A state with the built table meets the invariant when its STATUS and BIDX do. -/
theorem State.inv_of_builtTable {s : State} (ht : s.table = builtTable) (h1 : reservedBits s.status = 0#32)
    (h2 : errBit s.status = false ↔ ecodeField s.status = 0#4) (h3 : (ecodeField s.status).toNat ≤ 2)
    (h4 : s.bidx.toNat ≤ 256) (h5 : readyBit s.status = true ↔ s.bidx.toNat = 256) : s.Inv :=
  ⟨h1, h2, h3, h4, h5, fun i _ => by rw [ht, readEntry_builtTable]⟩

/-- BIDX counts up without wrapping while it is below 256. -/
theorem bidx_succ_toNat {b : BitVec 9} (h : b.toNat < 256) : (b + 1#9).toNat = b.toNat + 1 := by
  rw [BitVec.toNat_add]
  simp
  omega

/-- The init step that sets READY is the one at BIDX = 255 (70_reset_and_hazards.md R162). -/
theorem bidx_succ_eq_256 {b : BitVec 9} (h : b.toNat < 256) : b + 1#9 = 256#9 ↔ b.toNat = 255 := by
  rw [← BitVec.toNat_inj, bidx_succ_toNat h]
  simp

end Sys2Proof.Machine
end

