-- ==== Sys2Proof/Laws/PerInstr.lean ====
section
/-! SUPPORT. A statement about every command as syntax, one lemma per constructor: its encoding selects its own row of
30_encoding.md R64. -/

namespace Sys2Proof.Laws.EncodedInRow

/-- The command's word matches its row, and the row is one of the eight (30_encoding.md R64). -/
def Statement (i : Instr) : Prop := i.row.selects (encode i) = true ∧ i.row ∈ rows

/-- The mask of an F_AB row keeps the opcode alone. -/
theorem and_opcode_mask (o : BitVec 4) (a b : Word) :
    commandWord o a b &&& 0xF0000000000000000#68 = commandWord o 0#32 0#32 := by
  rw [show (0xF0000000000000000#68) = commandWord 0xF#4 0#32 0#32 by decide, commandWord_and, opcode_and_ones,
    BitVec.and_zero, BitVec.and_zero]

/-- The mask of an F_A8 row clears the byte and keeps the must-be-zero bits, which are zero. -/
theorem and_byte_mask (o : BitVec 4) (c : Byte) :
    commandWord o (c.setWidth 32) 0#32 &&& 0xFFFFFFF00FFFFFFFF#68 = commandWord o 0#32 0#32 := by
  rw [show (0xFFFFFFF00FFFFFFFF#68) = commandWord 0xF#4 0xFFFFFF00#32 0xFFFFFFFF#32 by decide, commandWord_and,
    opcode_and_ones, setWidth_and_high, BitVec.zero_and]

theorem nop : Statement .nop := by unfold Statement; decide

theorem xor (a b : Word) : Statement (.xor a b) := by
  refine ⟨?_, by simp [rows, Instr.row]⟩
  simp only [Row.selects, Instr.row, encode, and_opcode_mask]
  decide

theorem and (a b : Word) : Statement (.and a b) := by
  refine ⟨?_, by simp [rows, Instr.row]⟩
  simp only [Row.selects, Instr.row, encode, and_opcode_mask]
  decide

theorem shr (a n : Word) : Statement (.shr a n) := by
  refine ⟨?_, by simp [rows, Instr.row]⟩
  simp only [Row.selects, Instr.row, encode, and_opcode_mask]
  decide

theorem crcinit : Statement .crcinit := by unfold Statement; decide

theorem crcbyte (c : Byte) : Statement (.crcbyte c) := by
  refine ⟨?_, by simp [rows, Instr.row]⟩
  simp only [Row.selects, Instr.row, encode, and_byte_mask]
  decide

theorem crcread : Statement .crcread := by unfold Statement; decide

theorem tread (i : Byte) : Statement (.tread i) := by
  refine ⟨?_, by simp [rows, Instr.row]⟩
  simp only [Row.selects, Instr.row, encode, and_byte_mask]
  decide

end Sys2Proof.Laws.EncodedInRow
end

