-- ==== Sys2Proof/Tests/Slice0.lean ====
section
/-! SUPPORT. The author's own tests, their expected values taken from the spec's vectors and rules, and a witness for the
hypotheses of each statement. -/

namespace Sys2Proof.Tests

open Sys2Proof.Machine

/-! ## Helpers -/

/-- A block with the built table: CRC, STATUS, BIDX, the presented word and the host's script as given, RES = 0. -/
def block (crc status : Word) (bidx : BitVec 9) (presented : Option CommandWord) (script : List HostInput) : State where
  crc := crc
  res := 0#32
  status := status
  table := builtTable
  bidx := bidx
  presented := presented
  resetLine := false
  script := script
  epoch := 0

/-- A block that accepts commands, with ERR = 0 (STATUS = 0x00000001 of 95_test_vectors.md). -/
def accepts (crc : Word) (script : List HostInput) : State := block crc 1#32 256#9 none script

def resOf (o : Host.Outcome State Fault Refusal) : Option Word :=
  match o with
  | .next s => some s.res
  | _ => none

def crcOf (o : Host.Outcome State Fault Refusal) : Option Word :=
  match o with
  | .next s => some s.crc
  | _ => none

def statusOf (o : Host.Outcome State Fault Refusal) : Option Word :=
  match o with
  | .next s => some s.status
  | _ => none

theorem accepts_built (crc : Word) (script : List HostInput) : (accepts crc script).TableBuilt :=
  fun i => readEntry_builtTable i

theorem accepts_inv (crc : Word) (script : List HostInput) : (accepts crc script).Inv :=
  State.inv_of_builtTable rfl (by decide : reservedBits 1#32 = 0#32)
    (by decide : errBit 1#32 = false ↔ ecodeField 1#32 = 0#4) (by decide : (ecodeField 1#32).toNat ≤ 2)
    (by decide : (256#9).toNat ≤ 256) (by decide : readyBit 1#32 = true ↔ (256#9).toNat = 256)

/-- After one rejected word: ERR = 1, ECODE = 1 (STATUS = 0x00000013 of 95_test_vectors.md). -/
theorem rejected_inv (script : List HostInput) : (block 0#32 0x13#32 256#9 none script).Inv :=
  State.inv_of_builtTable rfl (by decide : reservedBits 0x13#32 = 0#32)
    (by decide : errBit 0x13#32 = false ↔ ecodeField 0x13#32 = 0#4) (by decide : (ecodeField 0x13#32).toNat ≤ 2)
    (by decide : (256#9).toNat ≤ 256) (by decide : readyBit 0x13#32 = true ↔ (256#9).toNat = 256)

/-- While initialising: READY = 0 and BIDX below 256. -/
theorem initialising_inv (crc : Word) {bidx : BitVec 9} (h : bidx.toNat < 256) (presented : Option CommandWord)
    (script : List HostInput) : (block crc 0#32 bidx presented script).Inv :=
  State.inv_of_builtTable rfl (by decide : reservedBits 0#32 = 0#32)
    (by decide : errBit 0#32 = false ↔ ecodeField 0#32 = 0#4) (by decide : (ecodeField 0#32).toNat ≤ 2)
    (Nat.le_of_lt h) ⟨fun hr => absurd hr (by decide : readyBit 0#32 ≠ true), fun he => by simp only [block] at he; omega⟩

/-! ## Decoding: words written out from 30_encoding.md R60 to R64 and 95_test_vectors.md sections 3 to 5 -/

theorem test_decode_nop : decode 0x00000000000000000#68 = .execute .nop := by decide
theorem test_decode_xor : decode 0x1EDB883207FFFFFFF#68 = .execute (.xor 0xEDB88320#32 0x7FFFFFFF#32) := by decide
theorem test_decode_and : decode 0x2123456780F0F0F0F#68 = .execute (.and 0x12345678#32 0x0F0F0F0F#32) := by decide
theorem test_decode_shr : decode 0x3FFFFFFFFFFFFFFFF#68 = .execute (.shr 0xFFFFFFFF#32 0xFFFFFFFF#32) := by decide
theorem test_decode_crcinit : decode 0x40000000000000000#68 = .execute .crcinit := by decide
theorem test_decode_crcbyte : decode 0x5000000FF00000000#68 = .execute (.crcbyte 0xFF#8) := by decide
theorem test_decode_crcread : decode 0x60000000000000000#68 = .execute .crcread := by decide
theorem test_decode_tread : decode 0x70000008000000000#68 = .execute (.tread 0x80#8) := by decide

theorem test_decode_rejects :
    decode 0x00000000000000001#68 = .reject .reservedOperand ∧
    decode 0x40000000100000000#68 = .reject .reservedOperand ∧
    decode 0x50000013500000000#68 = .reject .reservedOperand ∧
    decode 0x50000003500000001#68 = .reject .reservedOperand ∧
    decode 0x6FFFFFFFFFFFFFFFF#68 = .reject .reservedOperand ∧
    decode 0x70000010000000000#68 = .reject .reservedOperand ∧
    decode 0x80000000000000000#68 = .reject .illegalOpcode ∧
    decode 0xFFFFFFFFFFFFFFFFF#68 = .reject .illegalOpcode := by decide

theorem test_encode_words :
    encode (.crcbyte 0x30#8) = 0x50000003000000000#68 ∧ encode (.shr 256#32 8#32) = 0x30000010000000008#68 ∧
    encode (.tread 0xCF#8) = 0x7000000CF00000000#68 := by decide

/-- The host's two entry points on 30_encoding.md's words, the second beyond 68 bits. -/
theorem test_decodeTableWord :
    decodeTableWord 72 0x70000008000000000 = some (.tread 0x80#8) ∧ decodeTableWord 72 0x80000000000000000 = none ∧
    decodeTableWord 72 0x150000003000000000 = none := by decide

/-! ## Ill-formed words and lines, one for each check -/

theorem test_wellFormed_refuses_opcode : wellFormedWord 0x80000000000000000#68 = false := by decide
theorem test_wellFormed_refuses_N_operand_a : wellFormedWord 0x40000000100000000#68 = false := by decide
theorem test_wellFormed_refuses_N_operand_b : wellFormedWord 0x00000000000000001#68 = false := by decide
theorem test_wellFormed_refuses_A8_high_a : wellFormedWord 0x70000010000000000#68 = false := by decide
theorem test_wellFormed_refuses_A8_operand_b : wellFormedWord 0x50000003500000001#68 = false := by decide
theorem test_wellFormed_accepts : wellFormedWord 0x3FFFFFFFFFFFFFFFF#68 = true := by decide
theorem test_line_refuses_wide_literal : (AsmLine.xor 0 (2 ^ 32)).wellFormed = false := by decide
theorem test_line_refuses_wide_byte : (AsmLine.crcbyte 256).wellFormed = false := by decide
theorem test_line_refuses_wide_character : (AsmLine.crcstr ['0', 'Ā']).wellFormed = false := by decide

/-! ## Commands: 95_test_vectors.md sections 3 and 4 -/

theorem test_nop : crcOf (exec .nop (accepts 0x0B2420DE#32 [])) = some 0x0B2420DE#32 := by decide
theorem test_xor_bit31 : resOf (exec (.xor 0x80000000#32 1#32) (accepts 0#32 [])) = some 0x80000001#32 := by decide
theorem test_xor_example :
    resOf (exec (.xor 0xD629C28D#32 0x0000AAAA#32) (accepts 0#32 [])) = some 0xD6296827#32 := by decide
theorem test_and_mask : resOf (exec (.and 0xEDB88320#32 0xFF#32) (accepts 0#32 [])) = some 0x20#32 := by decide
theorem test_and_nibbles :
    resOf (exec (.and 0x12345678#32 0x0F0F0F0F#32) (accepts 0#32 [])) = some 0x02040608#32 := by decide
theorem test_shr_unsigned : resOf (exec (.shr 0xFFFFFFFF#32 1#32) (accepts 0#32 [])) = some 0x7FFFFFFF#32 := by decide
theorem test_shr_width : resOf (exec (.shr 0x80000000#32 32#32) (accepts 0#32 [])) = some 0#32 := by decide
theorem test_crcinit : crcOf (exec .crcinit (accepts 0x12345678#32 [])) = some 0xFFFFFFFF#32 := by decide
theorem test_crcbyte_first : crcOf (exec (.crcbyte 0x30#8) (accepts 0xFFFFFFFF#32 [])) = some 0x0B2420DE#32 := by decide
theorem test_crcbyte_later : crcOf (exec (.crcbyte 0x78#8) (accepts 0x12345678#32 [])) = some 0x00123456#32 := by decide
theorem test_crcread : resOf (exec .crcread (accepts 0xD629C28D#32 [])) = some 0xD629C28D#32 := by decide
theorem test_tread_last : resOf (exec (.tread 0xFF#8) (accepts 0#32 [])) = some 0x2D02EF8D#32 := by decide
theorem test_tread_128 : resOf (exec (.tread 0x80#8) (accepts 0#32 [])) = some 0xEDB88320#32 := by decide

/-- 95_test_vectors.md section 2: the trace of TableEntry(1), and rows of the table. -/
theorem test_table_entries :
    repeatTimes hashStep 1 1#32 = 0xEDB88320#32 ∧ repeatTimes hashStep 7 1#32 = 0xEE0E612C#32 ∧
    tableEntry 3#8 = 0x990951BA#32 ∧ tableEntry 0xCF#8 = 0x0BDBDF21#32 ∧ tableEntry 200#8 = 0x95BF4A82#32 := by decide

/-- 95_test_vectors.md section 4: message checksums. -/
theorem test_checksums :
    checksum [0x30#8, 0x31#8, 0x30#8, 0x31#8, 0x35#8, 0x36#8, 0x37#8, 0x38#8] = 0xD629C28D#32 ∧
    checksum [0x31#8, 0x32#8, 0x33#8, 0x34#8, 0x35#8, 0x36#8, 0x37#8, 0x38#8, 0x39#8] = 0x340BC6D9#32 := by decide

/-! ## Steps: rejection, hold, reset (95_test_vectors.md section 5 and P4) -/

theorem test_step_illegal_opcode :
    statusOf (step (accepts 0#32 [.present 0x80000000000000000#68])) = some 0x13#32 := by decide
theorem test_step_reserved_operand :
    statusOf (step (accepts 0#32 [.present 0x00000000000000001#68])) = some 0x23#32 := by decide
theorem test_step_keeps_first_code :
    statusOf (step (block 0#32 0x13#32 256#9 none [.present 0x00000000000000001#68])) = some 0x13#32 := by decide
theorem test_step_holds_word :
    crcOf (step (block 0x12345678#32 0#32 255#9 (some 0x40000000000000000#68) [])) = some 0x12345678#32 ∧
    statusOf (step (block 0x12345678#32 0#32 255#9 (some 0x40000000000000000#68) [])) = some 1#32 := by decide
theorem test_step_reset : crcOf (step (accepts 0#32 [.assertReset])) = some 0xFFFFFFFF#32 := by decide
/-- As the first instruction after reset, a placed word runs in the next step. -/
theorem test_withFetchWord :
    resOf (step (State.reset.withFetchWord 72 0x70000000100000000)) = some 0x77073096#32 := by decide

/-! ## The host's side and the assembler (95_test_vectors.md section 6, 30_encoding.md R69, R70) -/

theorem test_reset_codes :
    computeResetCode false 1 1 ['1', '2', '3', '4', '5', '6', '7', '8'] = some ['4', '3', '1', '7', '6'] ∧
    computeResetCode false 12 31 ['9', '9', '9', '9', '0', '0', '0', '0'] = some ['0', '1', '0', '5', '6'] ∧
    computeResetCode false 13 1 ['1', '2', '3', '4', '5', '6', '7', '8'] = none ∧
    computeResetCode false 1 1 ['1', '2', '3', '4', '5', '6', '7'] = none := by decide
theorem test_response_wrap :
    response false 0xFFFF4195#32 = 67296 ∧ response true 0xFFFF4195#32 = 0 ∧ response true 0#32 = 49003 := by decide
/-- XOR 0x1F, 2 ; c -/
theorem test_assemble_text_operands :
    assembleText ['X', 'O', 'R', ' ', '0', 'x', '1', 'F', ',', ' ', '2', ' ', ';', ' ', 'c']
      = some [0x10000001F00000002#68] := by decide
/-- CRCBYTE '5', and CHECKSUM "0" -/
theorem test_assemble_text_quotes :
    assembleText ['C', 'R', 'C', 'B', 'Y', 'T', 'E', ' ', singleQuote, '5', singleQuote]
      = some [0x50000003500000000#68] ∧
    assembleText ['C', 'H', 'E', 'C', 'K', 'S', 'U', 'M', ' ', doubleQuote, '0', doubleQuote]
      = some [0x40000000000000000#68, 0x50000003000000000#68, 0x60000000000000000#68] := by decide
/-- TREAD 256 is an assembly error. -/
theorem test_assemble_text_error : assembleText ['T', 'R', 'E', 'A', 'D', ' ', '2', '5', '6'] = none := by decide

/-! ## Witnesses: a state and operands that meet the hypotheses of each statement -/

theorem witness_FormatsUseTheirBitsAndRejectTheRest :
    ((0xFF#32).toNat < 256 ∧ 0#32 = 0#32) ∧ (256 ≤ (0x100#32).toNat ∨ 0#32 ≠ 0#32) ∧ (256 ≤ (0#32).toNat ∨ 1#32 ≠ 0#32) ∧
    ((0#32 : Word) ≠ 0#32 ∨ 1#32 ≠ 0#32) ∧ ((1#32 : Word) ≠ 0#32 ∨ 0#32 ≠ 0#32) := by decide

theorem witness_MatchAndMaskRows :
    Instr.crcread.row ∈ rows ∧ Instr.crcread.row.selects 0x60000000000000000#68 = true := by decide

theorem witness_DecodingIsTotal_each_opcode :
    8 ≤ (0x80000000000000000#68).toNat / 2 ^ 64 ∧ (0x00000000000000001#68).toNat / 2 ^ 64 = 0 ∧
    (0x1FFFFFFFFFFFFFFFF#68).toNat / 2 ^ 64 = 1 ∧ (0x20000000000000000#68).toNat / 2 ^ 64 = 2 ∧
    (0x3FFFFFFFF00000020#68).toNat / 2 ^ 64 = 3 ∧ (0x40000000100000000#68).toNat / 2 ^ 64 = 4 ∧
    (0x5000000FF00000000#68).toNat / 2 ^ 64 = 5 ∧ (0x60000000000000000#68).toNat / 2 ^ 64 = 6 ∧
    (0x70000010000000000#68).toNat / 2 ^ 64 = 7 := by decide

theorem witness_EncodeOfDecodeIsTheWord : decode 0x7000000FF00000000#68 = .execute (.tread 0xFF#8) := by decide

theorem witness_AllZeroWordChangesNothing :
    (accepts 7#32 [.present 0#68]).accepting = true ∧ (accepts 7#32 [.present 0#68]).presented = none ∧
    (accepts 7#32 [.present 0#68]).script = .present 0#68 :: [] := by decide

theorem witness_StepRunsTheDecodedCommand :
    decode 0x60000000000000000#68 = .execute .crcread ∧
    (accepts 7#32 [.present 0x60000000000000000#68]).accepting = true ∧
    (accepts 7#32 [.present 0x60000000000000000#68]).presented = none ∧
    (∀ script ∈ [[], [.idle], [.releaseReset], [HostInput.present 1#68]],
      (block 7#32 1#32 256#9 (some 0x60000000000000000#68) script).accepting = true ∧
      (block 7#32 1#32 256#9 (some 0x60000000000000000#68) script).presented = some 0x60000000000000000#68) := by decide

theorem witness_FetchWordIsRunByTheNextStep :
    decodeTableWord 72 (0x50000003000000000#68).toNat = some (.crcbyte 0x30#8) ∧
    (accepts 7#32 []).accepting = true ∧ State.reset.accepting = false := by decide

theorem witness_CommandsRunInOrderAndWhole :
    (accepts 7#32 [.present 0#68, .present 0x80000000000000000#68, .idle]).accepting = true ∧
    (accepts 7#32 [.present 0#68, .present 0x80000000000000000#68, .idle]).script
      = [0#68, 0x80000000000000000#68].map .present ++ [.idle] := by decide

theorem witness_BitOps_corners :
    (0xFFFFFFFF#32 : Word) ≠ 0#32 ∧ 32 ≤ (32#32).toNat ∧ 32 ≤ (0xFFFFFFFF#32).toNat ∧ (31#32).toNat < 32 := by decide

theorem witness_BitOpsLaws : 2 ^ 32 - 1 < 2 ^ 32 ∧ 0 < 2 ^ 32 := by decide

/-- The operand bits that RejectsReserved's premises need, for NOP, CRCINIT, CRCREAD and for CRCBYTE, TREAD. -/
theorem witness_rejected_operand_bits :
    ((1#32 : Word) ≠ 0#32 ∨ (0#32 : Word) ≠ 0#32) ∧ (256 ≤ (256#32).toNat ∨ (0#32 : Word) ≠ 0#32) := by decide

theorem witness_CrcByteUpdatesTheCrc :
    (accepts 0#32 []).TableBuilt ∧ (accepts 0#32 []).crc = 0#32 ∧ (accepts 0xFFFFFFFF#32 []).TableBuilt ∧
    (accepts 0xFFFFFFFF#32 []).crc = 0xFFFFFFFF#32 :=
  ⟨accepts_built _ _, rfl, accepts_built _ _, rfl⟩

theorem witness_CrcReadGivesTheCrcAsItStands :
    (∀ c, Instr.crcbyte c ∉ [Instr.nop, .crcread]) ∧
    (accepts 7#32 (presentAll (.crcinit :: [Instr.nop, .crcread] ++ [.crcread]))).accepting = true ∧
    (accepts 0xFFFFFFFF#32 (presentAll ([Instr.nop, .crcread] ++ [.crcread]))).crc = 0xFFFFFFFF#32 ∧
    (accepts 7#32 (presentAll (messageCommands
      [0x30#8, 0x31#8, 0x30#8, 0x31#8, 0x35#8, 0x36#8, 0x37#8, 0x38#8]))).TableBuilt :=
  ⟨by simp, by decide, rfl, accepts_built _ _⟩

theorem witness_TableReadGivesTheEntry :
    (accepts 7#32 []).Inv ∧ (accepts 7#32 []).accepting = true ∧ (accepts 7#32 []).TableBuilt :=
  ⟨accepts_inv _ _, by decide, accepts_built _ _⟩

theorem witness_MessageCommandsLeaveItsChecksum :
    (accepts 7#32 (presentAll (messageCommands [0xFF#8]) ++ [.idle])).accepting = true ∧
    (accepts 7#32 (presentAll (messageCommands [0xFF#8]) ++ [.idle])).TableBuilt ∧
    (accepts 7#32 (presentAll (messageCommands [0xFF#8]) ++ [.idle])).presented = none :=
  ⟨by decide, accepts_built _ _, rfl⟩

/-- Two blocks that differ in CRC and STATUS. -/
theorem witness_ChecksumFacts :
    (accepts 7#32 (presentAll (messageCommands [0xFF#8]))).accepting = true ∧
    (block 9#32 0x13#32 256#9 none (presentAll (messageCommands [0xFF#8]))).accepting = true ∧
    (accepts 7#32 (presentAll (messageCommands [0xFF#8]))).TableBuilt ∧
    (block 9#32 0x13#32 256#9 none (presentAll (messageCommands [0xFF#8]))).TableBuilt :=
  ⟨by decide, by decide, accepts_built _ _, fun i => readEntry_builtTable i⟩

theorem witness_InterleavedWordsDoNotChangeTheChecksum :
    (accepts 7#32 ([0x50000003000000000#68, 0#68].map .present ++ [])).accepting = true ∧
    (accepts 7#32 (([0x50000003000000000#68, 0#68].filter writesCrc).map .present ++ [])).accepting = true ∧
    (∃ code, decode 0x80000000000000000#68 = .reject code) ∧
    (accepts 7#32 [.assertReset]).script = .assertReset :: [] :=
  ⟨by decide, by decide, ⟨.illegalOpcode, by decide⟩, rfl⟩

theorem witness_NopChangesNothing :
    (block 7#32 0#32 255#9 (some 0#68) []).Inv ∧ (block 7#32 0#32 255#9 (some 0#68) []).ready = false ∧
    (block 7#32 0#32 255#9 (some 0#68) []).resetLine = false ∧
    (block 7#32 0#32 255#9 (some 0#68) []).presented = some 0#68 ∧ (block 7#32 0#32 255#9 (some 0#68) []).script = [] :=
  ⟨initialising_inv _ (by decide) _ _, by decide, rfl, rfl, rfl⟩

theorem witness_EveryStepKeepsTheInvariant :
    ∃ t, (accepts 7#32 [.present 0x80000000000000000#68]).Inv ∧
      step (accepts 7#32 [.present 0x80000000000000000#68]) = .next t :=
  ⟨_, accepts_inv _ _, step_present (by decide) rfl rfl⟩

theorem witness_EveryElementHasOnlyItsNamedWriters :
    (accepts 7#32 [.present 0x40000000000000000#68]).script.head? ≠ some .assertReset ∧
    (accepts 7#32 []).script.head? ≠ some .assertReset := by decide

theorem witness_TableIsImmutableOnceReady :
    (accepts 7#32 [.releaseReset]).Inv ∧ (accepts 7#32 [.releaseReset]).ready = true ∧ NoReset [.releaseReset] :=
  ⟨accepts_inv _ _, by decide, by simp [NoReset]⟩

theorem witness_RejectionRecordsTheFirstCodeAndNothingElse :
    wordAcceptedNext (accepts 7#32 [.present 0x00000000000000001#68]) = some 0x00000000000000001#68 ∧
    decode 0x00000000000000001#68 = .reject .reservedOperand ∧
    wordAcceptedNext (block 7#32 0x23#32 256#9 (some 0x80000000000000000#68) [.idle]) = some 0x80000000000000000#68 ∧
    decode 0x80000000000000000#68 = .reject .illegalOpcode := by decide

theorem witness_WhichWordsAreRejectedWithWhichCode :
    8 ≤ (8#4).toNat ∧ 8 ≤ (15#4).toNat ∧ ecodeField (accepts 7#32 []).status = 0#4 ∧
    ecodeField (block 7#32 0x13#32 256#9 none []).status ≠ 0#4 ∧
    decode 0x50000010000000000#68 = .reject .reservedOperand := by decide

theorem witness_ErrorStaysUntilReset :
    (block 0#32 0x13#32 256#9 none [.present 0#68]).Inv ∧
    errBit (block 0#32 0x13#32 256#9 none [.present 0#68]).status = true ∧ NoReset [.present 0#68] ∧
    decode 0x00000000000000001#68 = .reject .reservedOperand :=
  ⟨rejected_inv _, by decide, by simp [NoReset], by decide⟩

theorem witness_ResetSetsItsValuesAndHoldsTheBlock :
    (accepts 7#32 [.assertReset]).script = .assertReset :: [] ∧
    (assertReset (accepts 7#32 [.idle])).resetLine = true ∧
    (assertReset (accepts 7#32 [.idle])).script.head? ≠ some .assertReset ∧
    (assertReset (accepts 7#32 [.idle])).script.head? ≠ some .releaseReset ∧
    (assertReset (accepts 7#32 [.releaseReset])).script = .releaseReset :: [] ∧
    (block 7#32 0#32 0#9 none []).resetLine = false ∧ (block 7#32 0#32 0#9 none []).bidx = 0#9 ∧
    (block 7#32 0#32 0#9 none []).script.head? ≠ some .assertReset := by decide

theorem witness_InitStepBuildsOneEntry :
    (block 7#32 0#32 254#9 none []).resetLine = false ∧ (block 7#32 0#32 254#9 none []).bidx.toNat < 256 ∧
    (block 7#32 0#32 255#9 none [.idle]).bidx.toNat = 255 ∧
    (block 7#32 0#32 255#9 none [.idle]).script.head? ≠ some .assertReset ∧
    256 ≤ (accepts 7#32 []).bidx.toNat ∧ (assertReset (accepts 7#32 [])).resetLine = true := by decide

theorem witness_InitialisationEndsWithTheTableBuilt :
    (block 7#32 0#32 0#9 none [.present 0#68]).Inv ∧ (block 7#32 0#32 0#9 none [.present 0#68]).ready = false ∧
    NoReset [.present 0#68] ∧ 0 < 256 - (block 7#32 0#32 0#9 none [.present 0#68]).bidx.toNat :=
  ⟨initialising_inv _ (by decide) _ _, by decide, by simp [NoReset], by decide⟩

theorem witness_InitStepsEqualTheCollapsedInitialisation :
    (block 7#32 0#32 255#9 (some 0#68) []).Inv ∧ (block 7#32 0#32 255#9 (some 0#68) []).ready = false ∧
    (block 7#32 0#32 255#9 (some 0#68) []).script = [] ∧
    0 < 256 - (block 7#32 0#32 255#9 (some 0#68) []).bidx.toNat :=
  ⟨initialising_inv _ (by decide) _ _, by decide, rfl, by decide⟩

/-- The state before the first reset is among those the statement is about. -/
theorem witness_NothingSurvivesReset :
    (State.powerUp.setScript [.assertReset, .releaseReset, .present 0#68]).script
      = .assertReset :: .releaseReset :: [.present 0#68] ∧ NoReset [.present 0#68] :=
  ⟨rfl, by simp [NoReset]⟩

theorem witness_PresentedWordIsHeldUntilReady :
    (block 7#32 0#32 0#9 (some 0x80000000000000000#68) [.present 0#68]).Inv ∧
    (block 7#32 0#32 0#9 (some 0x80000000000000000#68) [.present 0#68]).ready = false ∧
    (block 7#32 0#32 0#9 (some 0x80000000000000000#68) [.present 0#68]).resetLine = false ∧ NoReset [.present 0#68] :=
  ⟨initialising_inv _ (by decide) _ _, by decide, rfl, by simp [NoReset]⟩

/-- The clause of a word presented in the step itself, at both ends of initialisation (row 1 of P4 is the first). -/
theorem witness_PresentedWordIsHeldUntilReady_presented_now :
    ∀ bidx ∈ [0#9, 255#9],
      (block 0xFFFFFFFF#32 0#32 bidx none [.present 0x40000000000000000#68, .idle]).Inv ∧
      (block 0xFFFFFFFF#32 0#32 bidx none [.present 0x40000000000000000#68, .idle]).ready = false ∧
      (block 0xFFFFFFFF#32 0#32 bidx none [.present 0x40000000000000000#68, .idle]).resetLine = false ∧
      (block 0xFFFFFFFF#32 0#32 bidx none [.present 0x40000000000000000#68, .idle]).presented = none ∧
      NoReset [.idle] :=
  fun bidx h => ⟨initialising_inv _ ((by decide : ∀ b ∈ [0#9, 255#9], b.toNat < 256) bidx h) _ _,
    (by decide : readyBit 0#32 = false), rfl, rfl, by simp [NoReset]⟩

theorem witness_host_preconditions :
    hostPreconditions 1 1 ['1', '2', '3', '4', '5', '6', '7', '8'] = true ∧
    hostPreconditions 12 31 ['8', '7', '6', '5', '5', '6', '7', '8'] = true ∧
    ['1', '2', '3', '4', '5', '6', '7', '8'].drop 4 = ['8', '7', '6', '5', '5', '6', '7', '8'].drop 4 := by decide

theorem witness_ResponseIsTheFinalTransform :
    (0#32 ^^^ 43690#32).toNat < 4294961983 ∧ 4294961983 ≤ (0xFFFF4195#32 ^^^ 43690#32).toNat := by decide

/-- A month of 13, a day of 0, seven digits, nine digits and a letter each fail. -/
theorem witness_FailedPreconditionGivesNoResultAndNoCommand :
    ¬((1 : Int) ≤ 13 ∧ (13 : Int) ≤ 12) ∧ ¬((1 : Int) ≤ 0) ∧ ['1', '2', '3', '4', '5', '6', '7'].length ≠ 8 ∧
    ['1', '2', '3', '4', '5', '6', '7', '8', '9'].length ≠ 8 ∧ ¬('a'.toNat ≤ 57) := by decide

theorem witness_HostSessionOnTheBlockGivesTheResetCode :
    (accepts 7#32 (hostSession 1 1 ['1', '2', '3', '4', '5', '6', '7', '8'] ++ [.idle])).accepting = true ∧
    (accepts 7#32 (hostSession 1 1 ['1', '2', '3', '4', '5', '6', '7', '8'] ++ [.idle])).TableBuilt ∧
    errBit (accepts 7#32 (hostSession 1 1 ['1', '2', '3', '4', '5', '6', '7', '8'] ++ [.idle])).status = false ∧
    errBit (block 7#32 0x13#32 256#9 none []).status = true :=
  ⟨by decide, accepts_built _ _, by decide, by decide⟩

theorem witness_PseudoInstructionsExpand :
    (∀ c ∈ ['0', 'ÿ'], c.toNat ≤ 255) ∧ 'Ā' ∈ ['0', 'Ā'] ∧ 255 < 'Ā'.toNat :=
  ⟨by simp, by simp, by decide⟩

end Sys2Proof.Tests
end

section
/-! PROOFS. What one step does to the five state elements, said once (`step_effect`), and from it the invariant, the
writers of each element and the immutability of TABLE (10_state.md sections 2 and 3). -/

namespace Sys2Proof.Machine

/-! ## What one step does to the elements -/

/-- `t` holds the same five elements as `s` (10_state.md R20); the interface and the host's future may differ. -/
structure SameElements (s t : State) : Prop where
  crc : t.crc = s.crc
  res : t.res = s.res
  status : t.status = s.status
  table : t.table = s.table
  bidx : t.bidx = s.bidx

theorem SameElements.refl (s : State) : SameElements s s := ⟨rfl, rfl, rfl, rfl, rfl⟩

/-- The four things a step can do to the elements, each with the condition under which it does it. -/
inductive StepEffect (s t : State) : Prop
  /-- Reset is asserted (70_reset_and_hazards.md R160). -/
  | reset (head : s.script.head? = some .assertReset) (same : SameElements (assertReset s) t)
  /-- Nothing is written: reset is asserted already, or the block waits. -/
  | stays (same : SameElements s t)
  /-- The init sequencer's step (70_reset_and_hazards.md R162). -/
  | init (released : s.resetLine = false) (below : s.bidx.toNat < 256) (same : SameElements (initStep s) t)
  /-- One word is accepted (20_memory.md R47). -/
  | accepts (w : CommandWord) (accepted : wordAcceptedNext s = some w) (same : SameElements (afterWord w s) t)

theorem wordAcceptedNext_of_held {s : State} {w : CommandWord} (ha : s.accepting = true) (hp : s.presented = some w)
    (hs : s.script.head? ≠ some .assertReset) : wordAcceptedNext s = some w := by
  unfold wordAcceptedNext
  rw [if_pos ha, hp]
  split <;> simp_all

theorem wordAcceptedNext_of_present {s : State} {w : CommandWord} {rest : List HostInput} (ha : s.accepting = true)
    (hp : s.presented = none) (hs : s.script = .present w :: rest) : wordAcceptedNext s = some w := by
  simp [wordAcceptedNext, ha, hp, hs]

/-- The block's own step once the host has moved, that is, on `s` with its interface and script moved on: it always
answers, keeps the script, and has one of the effects. -/
theorem blockStep_effect {s : State} (l : List HostInput) (p : Option CommandWord)
    (haccepted : ∀ w, s.accepting = true → p = some w → wordAcceptedNext s = some w) :
    ∃ t, blockStep ((s.setScript l).setPresented p) = .next t ∧ t.script = l ∧ StepEffect s t := by
  obtain ⟨_, h⟩ | ⟨hl, hb, h⟩ | ⟨_, _, _, h⟩ | ⟨_, _, h⟩ | ⟨w, ha, hp, h⟩ :=
    blockStep_cases ((s.setScript l).setPresented p)
  · exact ⟨_, h, rfl, .stays ⟨rfl, rfl, rfl, rfl, rfl⟩⟩
  · exact ⟨_, h, rfl, .init hl hb ⟨rfl, rfl, rfl, rfl, rfl⟩⟩
  · exact ⟨_, h, rfl, .stays ⟨rfl, rfl, rfl, rfl, rfl⟩⟩
  · exact ⟨_, h, rfl, .stays ⟨rfl, rfl, rfl, rfl, rfl⟩⟩
  · refine ⟨_, h, by simp, .accepts w (haccepted w ha hp) ?_⟩
    simp only [afterWord_setPresented, afterWord_setScript]
    exact ⟨rfl, rfl, rfl, rfl, rfl⟩

/-- Every step answers, leaves a tail of the host's script, and has one of the four effects. -/
theorem step_effect (s : State) : ∃ t, step s = .next t ∧ t.script <:+ s.script ∧ StepEffect s t := by
  obtain ⟨rest, hs, h⟩ | ⟨rest, hs, _, h⟩ | ⟨w, rest, hs, _, h⟩ | ⟨w, rest, hs, _, hp, h⟩ |
    ⟨v, w, rest, hs, _, hp, h⟩ | ⟨hs, h⟩ := step_cases s
  · exact ⟨_, h, ⟨[.assertReset], hs.symm⟩, .reset (by rw [hs]; rfl) ⟨rfl, rfl, rfl, rfl, rfl⟩⟩
  · exact ⟨_, h, ⟨[.releaseReset], hs.symm⟩, .stays ⟨rfl, rfl, rfl, rfl, rfl⟩⟩
  · exact ⟨_, h, ⟨[.present w], hs.symm⟩, .stays ⟨rfl, rfl, rfl, rfl, rfl⟩⟩
  · obtain ⟨t, ht, hscript, he⟩ := blockStep_effect (s := s) rest (some w) fun _ ha hw =>
      hw ▸ wordAcceptedNext_of_present ha hp hs
    exact ⟨t, h.trans ht, ⟨[.present w], by rw [hscript, hs]; rfl⟩, he⟩
  · obtain ⟨t, ht, hscript, he⟩ := blockStep_effect (s := s) s.script s.presented fun _ ha hw =>
      wordAcceptedNext_of_held ha hw (by simp [hs])
    exact ⟨t, h.trans ht, hscript ▸ List.suffix_rfl, he⟩
  · obtain ⟨t, ht, hscript, he⟩ := blockStep_effect (s := s) s.script.tail s.presented fun _ ha hw =>
      wordAcceptedNext_of_held ha hw (by obtain hs | hs | ⟨hs, _⟩ := hs <;> simp [hs])
    exact ⟨t, h.trans ht, hscript ▸ List.tail_suffix _, he⟩

/-! ## The invariant -/

theorem State.Inv.of_sameElements {s t : State} (h : s.Inv) (e : SameElements s t) : t.Inv :=
  h.congr e.status e.table e.bidx

/-- With STATUS and BIDX zero the invariant holds whatever TABLE is: no entry is claimed yet. -/
theorem State.inv_of_status_bidx_zero {s : State} (hs : s.status = 0#32) (hb : s.bidx = 0#9) : s.Inv where
  reserved_zero := by rw [hs]; decide
  err_iff := by rw [hs]; decide
  ecode_legal := by rw [hs]; decide
  bidx_le := by rw [hb]; decide
  ready_iff := by rw [State.ready, hs, hb]; decide
  built := fun i hi => by rw [hb] at hi; exact absurd hi (Nat.not_lt_zero _)

theorem assertReset_inv (s : State) : (assertReset s).Inv := State.inv_of_status_bidx_zero rfl rfl

theorem reservedBits_setReady (st : Word) (h : reservedBits st = 0#32) : reservedBits (setReady st) = 0#32 := by
  rw [reservedBits_eq_zero_iff] at h ⊢
  intro k h0 h1 h4
  simp [setReady_getLsbD, h k h0 h1 h4, h0]

theorem reservedBits_recordRejection (st : Word) (code : RejectCode) (h : reservedBits st = 0#32) :
    reservedBits (recordRejection st code) = 0#32 := by
  rw [reservedBits_eq_zero_iff] at h ⊢
  intro k h0 h1 h4
  rw [recordRejection_getLsbD st code h1 h4, h k h0 h1 h4]

/-- A rejection leaves one of the two codes recorded, so that ECODE ≠ 0 goes with ERR = 1 (10_state.md R24). -/
theorem ecodeField_recordRejection_ne_zero (st : Word) (code : RejectCode) :
    ecodeField (recordRejection st code) ≠ 0#4 := by
  rw [ecodeField_recordRejection]
  split
  · cases code <;> decide
  · assumption

theorem ecodeField_recordRejection_legal (st : Word) (code : RejectCode) (h : (ecodeField st).toNat ≤ 2) :
    (ecodeField (recordRejection st code)).toNat ≤ 2 := by
  rw [ecodeField_recordRejection]
  split
  · cases code <;> decide
  · exact h

theorem State.Inv.reject {s : State} (h : s.Inv) (code : RejectCode) : (reject code s).Inv where
  reserved_zero := reservedBits_recordRejection _ code h.reserved_zero
  err_iff := by simp [ecodeField_recordRejection_ne_zero]
  ecode_legal := ecodeField_recordRejection_legal _ code h.ecode_legal
  bidx_le := h.bidx_le
  ready_iff := by rw [State.ready_reject]; exact h.ready_iff
  built := h.built

theorem State.Inv.afterWord {s : State} (h : s.Inv) (w : CommandWord) : (afterWord w s).Inv := by
  have hn := acceptWord_next w s
  obtain ⟨_, v, _, ha⟩ | ⟨_, v, _, ha⟩ | ⟨code, _, ha⟩ := acceptWord_cases w s <;>
    rw [ha, Host.Outcome.next.injEq] at hn <;> rw [← hn]
  · exact h.congr rfl rfl rfl
  · exact h.congr rfl rfl rfl
  · exact h.reject code

/-- READY after an init step is 1 exactly at the one that ends the table (70_reset_and_hazards.md R162). -/
theorem ready_initStep {s : State} (hr : s.ready = false) (hb : s.bidx.toNat < 256) :
    (initStep s).ready = true ↔ s.bidx.toNat = 255 := by
  rw [State.ready, initStep_status, ← bidx_succ_eq_256 hb]
  split
  case isTrue h => simp [h]
  case isFalse h => simpa [h, State.ready] using hr

/-- An init step builds the entry at BIDX and keeps the entries below it. -/
theorem readEntry_initStep {s : State} (hb : s.bidx.toNat < 256)
    (hbuilt : ∀ i : Byte, i.toNat < s.bidx.toNat → readEntry s.table i = tableEntry i) {i : Byte}
    (hi : i.toNat ≤ s.bidx.toNat) : readEntry (initStep s).table i = tableEntry i := by
  have hidx : (initIndex s.bidx).toNat = s.bidx.toNat := by rw [initIndex_toNat, Nat.mod_eq_of_lt hb]
  rw [initStep_table]
  by_cases h : i.toNat = s.bidx.toNat
  · have : i = initIndex s.bidx := BitVec.eq_of_toNat_eq (h.trans hidx.symm)
    rw [this, readEntry_writeEntry_same]
  · rw [readEntry_writeEntry_other _ _ (by omega)]
    exact hbuilt i (by omega)

theorem State.Inv.initStep {s : State} (h : s.Inv) (hb : s.bidx.toNat < 256) : (initStep s).Inv where
  reserved_zero := by
    rw [initStep_status]
    split
    · exact reservedBits_setReady _ h.reserved_zero
    · exact h.reserved_zero
  err_iff := by
    rw [initStep_status]
    split
    · simpa using h.err_iff
    · exact h.err_iff
  ecode_legal := by
    rw [initStep_status]
    split
    · simpa using h.ecode_legal
    · exact h.ecode_legal
  bidx_le := by rw [initStep_bidx, bidx_succ_toNat hb]; omega
  ready_iff := by
    have hr : s.ready = false := by
      rw [← Bool.not_eq_true, h.ready_iff]
      omega
    rw [ready_initStep hr hb, initStep_bidx, bidx_succ_toNat hb]
    omega
  built := fun i hi => by
    rw [initStep_bidx, bidx_succ_toNat hb] at hi
    exact readEntry_initStep hb h.built (by omega)

theorem StepEffect.keeps_inv {s t : State} (e : StepEffect s t) (h : s.Inv) : t.Inv := by
  cases e with
  | reset _ same => exact (assertReset_inv s).of_sameElements same
  | stays same => exact h.of_sameElements same
  | init _ below same => exact (h.initStep below).of_sameElements same
  | accepts w _ same => exact (h.afterWord w).of_sameElements same

/-! ## Which commands write which element -/

theorem exec_crc_ne {i : Instr} {s t : State} (h : exec i s = .next t) (hne : t.crc ≠ s.crc) :
    i = .crcinit ∨ ∃ c, i = .crcbyte c := by
  cases i with
  | crcinit => exact .inl rfl
  | crcbyte c => exact .inr ⟨c, rfl⟩
  | nop | xor | and | shr | crcread | tread => cases h; exact absurd rfl hne

theorem exec_res_ne {i : Instr} {s t : State} (h : exec i s = .next t) (hne : t.res ≠ s.res) :
    (∃ a b, i = .xor a b ∨ i = .and a b ∨ i = .shr a b) ∨ i = .crcread ∨ ∃ k, i = .tread k := by
  cases i with
  | xor a b => exact .inl ⟨a, b, .inl rfl⟩
  | and a b => exact .inl ⟨a, b, .inr (.inl rfl)⟩
  | shr a n => exact .inl ⟨a, n, .inr (.inr rfl)⟩
  | crcread => exact .inr (.inl rfl)
  | tread k => exact .inr (.inr ⟨k, rfl⟩)
  | nop | crcinit | crcbyte => cases h; exact absurd rfl hne

theorem exec_status {i : Instr} {s t : State} (h : exec i s = .next t) : t.status = s.status := by
  obtain ⟨v, hv⟩ | ⟨v, hv⟩ := exec_writes i s <;> rw [hv] at h <;> cases h <;> rfl

/-- CRC changes only by CRCINIT and CRCBYTE (10_state.md R21). -/
theorem decode_of_afterWord_crc_ne {w : CommandWord} {s : State} (h : (afterWord w s).crc ≠ s.crc) :
    decode w = .execute .crcinit ∨ ∃ c, decode w = .execute (.crcbyte c) := by
  cases hd : decode w with
  | execute i => simpa using exec_crc_ne (afterWord_of_execute hd s) h
  | reject code => exact absurd (by rw [afterWord_of_reject hd]; rfl) h

/-- RES changes only by the BitOps, CRCREAD and TREAD (10_state.md R22). -/
theorem decode_of_afterWord_res_ne {w : CommandWord} {s : State} (h : (afterWord w s).res ≠ s.res) :
    (∃ a b, decode w = .execute (.xor a b) ∨ decode w = .execute (.and a b) ∨ decode w = .execute (.shr a b)) ∨
      decode w = .execute .crcread ∨ ∃ i, decode w = .execute (.tread i) := by
  cases hd : decode w with
  | execute i => simpa using exec_res_ne (afterWord_of_execute hd s) h
  | reject code => exact absurd (by rw [afterWord_of_reject hd]; rfl) h

/-- Of the words, only a rejected one changes STATUS (10_state.md R23, R29). -/
theorem decode_of_afterWord_status_ne {w : CommandWord} {s : State} (h : (afterWord w s).status ≠ s.status) :
    ∃ code, decode w = .reject code := by
  cases hd : decode w with
  | execute i => exact absurd (exec_status (afterWord_of_execute hd s)) h
  | reject code => exact ⟨code, rfl⟩

/-- An init step changes STATUS only by setting READY, at BIDX = 255 (70_reset_and_hazards.md R162). -/
theorem initStep_status_ne {s : State} (hb : s.bidx.toNat < 256) (h : (initStep s).status ≠ s.status) :
    s.bidx = 255#9 ∧ (initStep s).status = s.status ||| 1#32 := by
  rw [initStep_status] at h ⊢
  split at h
  case isTrue h256 =>
    exact ⟨BitVec.eq_of_toNat_eq ((bidx_succ_eq_256 hb).mp h256), by rw [if_pos h256]; rfl⟩
  case isFalse => exact absurd rfl h

section Writers

variable {s t : State}

theorem StepEffect.crc_writer (e : StepEffect s t) (hr : s.script.head? ≠ some .assertReset) (hne : t.crc ≠ s.crc) :
    ∃ w, wordAcceptedNext s = some w ∧
      (decode w = .execute .crcinit ∨ ∃ c, decode w = .execute (.crcbyte c)) := by
  cases e with
  | reset head => exact absurd head hr
  | stays same => exact absurd same.crc hne
  | init _ _ same => exact absurd same.crc hne
  | accepts w accepted same => exact ⟨w, accepted, decode_of_afterWord_crc_ne (same.crc ▸ hne)⟩

theorem StepEffect.res_writer (e : StepEffect s t) (hr : s.script.head? ≠ some .assertReset) (hne : t.res ≠ s.res) :
    ∃ w, wordAcceptedNext s = some w ∧
      ((∃ a b, decode w = .execute (.xor a b) ∨ decode w = .execute (.and a b) ∨ decode w = .execute (.shr a b)) ∨
        decode w = .execute .crcread ∨ ∃ i, decode w = .execute (.tread i)) := by
  cases e with
  | reset head => exact absurd head hr
  | stays same => exact absurd same.res hne
  | init _ _ same => exact absurd same.res hne
  | accepts w accepted same => exact ⟨w, accepted, decode_of_afterWord_res_ne (same.res ▸ hne)⟩

theorem StepEffect.status_writer (e : StepEffect s t) (hr : s.script.head? ≠ some .assertReset)
    (hne : t.status ≠ s.status) :
    (s.resetLine = false ∧ s.bidx = 255#9 ∧ t.status = s.status ||| 1#32) ∨
      ∃ w code, wordAcceptedNext s = some w ∧ decode w = .reject code := by
  cases e with
  | reset head => exact absurd head hr
  | stays same => exact absurd same.status hne
  | init released below same =>
    rw [same.status] at hne ⊢
    exact .inl ⟨released, initStep_status_ne below hne⟩
  | accepts w accepted same =>
    obtain ⟨code, hd⟩ := decode_of_afterWord_status_ne (same.status ▸ hne)
    exact .inr ⟨w, code, accepted, hd⟩

theorem StepEffect.table_bidx_writer (e : StepEffect s t) (hr : s.script.head? ≠ some .assertReset)
    (hne : t.table ≠ s.table ∨ t.bidx ≠ s.bidx) : s.resetLine = false ∧ s.bidx.toNat < 256 := by
  cases e with
  | reset head => exact absurd head hr
  | stays same => exact absurd hne (by simp [same.table, same.bidx])
  | init released below => exact ⟨released, below⟩
  | accepts w _ same => exact absurd hne (by simp [same.table, same.bidx])

end Writers

/-! ## Runs without reset -/

/-- The induction over a run, once: what holds at its start and every step keeps, with an answer, holds at its end. -/
theorem run_keeps {P : State → Prop} (hstep : ∀ s, P s → ∃ t, step s = .next t ∧ P t) (k : Nat) {s : State}
    (h : P s) : ∃ t, Host.Core.run core k s = .next t ∧ P t := by
  induction k generalizing s with
  | zero => exact ⟨s, rfl, h⟩
  | succ k ih =>
    obtain ⟨u, hu, hPu⟩ := hstep s h
    rw [run_succ hu]
    exact ih hPu

theorem NoReset.head_ne {l : List HostInput} (h : NoReset l) : l.head? ≠ some .assertReset := fun hh =>
  h (List.mem_of_head? hh)

theorem NoReset.of_suffix {l m : List HostInput} (h : NoReset l) (hs : m <:+ l) : NoReset m := fun hm =>
  h (hs.mem hm)

/-- What a run keeps from a ready block on: the invariant, READY, the host's asserting no reset, and TABLE as `T`. -/
structure ReadyWithTable (T : Vector Word 256) (s : State) : Prop where
  inv : s.Inv
  ready : s.ready = true
  noReset : NoReset s.script
  table : s.table = T

theorem ReadyWithTable.kept_by_step {T : Vector Word 256} {s : State} (h : ReadyWithTable T s) :
    ∃ t, step s = .next t ∧ ReadyWithTable T t := by
  obtain ⟨t, ht, hscript, he⟩ := step_effect s
  have hinv : t.Inv := he.keeps_inv h.inv
  have hbidx : s.bidx.toNat = 256 := h.inv.ready_iff.mp h.ready
  have hsame : t.table = s.table ∧ t.bidx = s.bidx := by
    by_contra hne
    have := (he.table_bidx_writer h.noReset.head_ne (not_and_or.mp hne)).2
    omega
  exact ⟨t, ht, hinv, hinv.ready_iff.mpr (hsame.2 ▸ hbidx), h.noReset.of_suffix hscript, hsame.1.trans h.table⟩

end Sys2Proof.Machine

namespace Sys2Proof.Proofs

open Sys2Proof.Machine

/-- Settles O29: each value is State.reset's own, and TABLE's entries are read through `readEntry_unbuiltTable`. -/
theorem resetStateHoldsTheSpecifiedValues : Obligations.ResetStateHoldsTheSpecifiedValues := by
  unfold Obligations.ResetStateHoldsTheSpecifiedValues
  exact ⟨rfl, rfl, rfl, by decide, by decide, by decide, rfl, readEntry_unbuiltTable 0⟩

/-- Settles O30: STATUS and BIDX are zero after reset. -/
theorem resetMeetsTheInvariant : Obligations.ResetMeetsTheInvariant :=
  State.inv_of_status_bidx_zero rfl rfl

/-- Settles O31, by the four effects a step can have, each of which keeps the invariant. -/
theorem everyStepKeepsTheInvariant : Obligations.EveryStepKeepsTheInvariant := by
  intro s t hinv hstep
  obtain ⟨u, hu, _, he⟩ := step_effect s
  cases hstep.symm.trans hu
  exact he.keeps_inv hinv

/-- Settles O32, by the four effects a step can have, of which reset is excluded. -/
theorem everyElementHasOnlyItsNamedWriters : Obligations.EveryElementHasOnlyItsNamedWriters := by
  intro s hr
  obtain ⟨t, ht, _, he⟩ := step_effect s
  exact ⟨t, ht, he.crc_writer hr, he.res_writer hr, he.status_writer hr, he.table_bidx_writer hr⟩

/-- Settles O33: a run keeps `ReadyWithTable`, which by the invariant makes TABLE complete. -/
theorem tableIsImmutableOnceReady : Obligations.TableIsImmutableOnceReady := by
  intro k s hinv hready hno
  have hstart : ReadyWithTable s.table s := ⟨hinv, hready, hno, rfl⟩
  obtain ⟨t, hrun, ht⟩ := run_keeps (fun _ h => h.kept_by_step) k hstart
  exact ⟨t, hrun, ht.table, ht.ready, ht.inv.tableBuilt ht.ready⟩

end Sys2Proof.Proofs
end

section
/-! PROOFS. Words presented one after another to a block that accepts them (20_memory.md R47): the run of a list of
words, said once (`run_words`), as the effects of its words in order. -/

namespace Sys2Proof.Machine

/-- What a list of accepted words leaves: each word's effect on the state the one before it left. -/
def afterWords (ws : List CommandWord) (s : State) : State := ws.foldl (fun u w => afterWord w u) s

@[simp] theorem afterWords_nil (s : State) : afterWords [] s = s := rfl

@[simp] theorem afterWords_cons (w : CommandWord) (ws : List CommandWord) (s : State) :
    afterWords (w :: ws) s = afterWords ws (afterWord w s) := rfl

/-- The words' effects do not depend on what the host does later. -/
theorem afterWords_setScript (ws : List CommandWord) (s : State) (l : List HostInput) :
    afterWords ws (s.setScript l) = (afterWords ws s).setScript l := by
  induction ws generalizing s with
  | nil => rfl
  | cons w ws ih => rw [afterWords_cons, afterWord_setScript, ih, afterWords_cons]

/-- A block that accepts takes one presented word a step: the step leaves it accepting, with the interface empty and
the host's next word to come, so the run of the words left starts where this word's effect ended. -/
theorem run_words (ws : List CommandWord) {s : State} {rest : List HostInput} (ha : s.accepting = true)
    (hp : s.presented = none) (hs : s.script = ws.map .present ++ rest) :
    Host.Core.run core ws.length s = .next ((afterWords ws s).setScript rest) := by
  induction ws generalizing s with
  | nil =>
    have hrest : s.script = rest := hs
    subst hrest
    rfl
  | cons w ws ih =>
    have hstep : step s = .next ((afterWord w s).setScript (ws.map .present ++ rest)) := step_present ha hp hs
    calc Host.Core.run core (ws.length + 1) s
      _ = Host.Core.run core ws.length ((afterWord w s).setScript (ws.map .present ++ rest)) := run_succ hstep _
      _ = .next ((afterWords ws ((afterWord w s).setScript (ws.map .present ++ rest))).setScript rest) :=
        ih (by simpa using ha) (by simpa using hp) rfl
      _ = .next ((afterWords (w :: ws) s).setScript rest) := by rw [afterWords_setScript]; rfl

end Sys2Proof.Machine

namespace Sys2Proof.Proofs

open Sys2Proof.Machine

/-- Settles O12: the run is `run_words`, and the outputs read RES and STATUS, which the host's script does not touch. -/
theorem commandsRunInOrderAndWhole : Obligations.CommandsRunInOrderAndWhole := by
  intro ws s rest ha hp hs
  exact ⟨run_words ws ha hp hs, rfl, rfl⟩

end Sys2Proof.Proofs
end

section
/-! PROOFS. The encoding of 30_encoding.md, from three things said once: what each assigned opcode decodes to, what the
operand check of each format answers, and which words the mask and match of each format select. -/

namespace Sys2Proof

/-! ## The fields as numbers (30_encoding.md R60) -/

theorem opField_toNat (w : CommandWord) : (opField w).toNat = w.toNat / 2 ^ 64 := by
  have := w.isLt
  simp only [opField, BitVec.extractLsb'_toNat, Nat.shiftRight_eq_div_pow]
  omega

theorem aField_toNat (w : CommandWord) : (aField w).toNat = w.toNat / 2 ^ 32 % 2 ^ 32 := by
  simp only [aField, BitVec.extractLsb'_toNat, Nat.shiftRight_eq_div_pow]

theorem bField_toNat (w : CommandWord) : (bField w).toNat = w.toNat % 2 ^ 32 := by
  simp only [bField, BitVec.extractLsb'_toNat, Nat.shiftRight_zero]

/-- Two words are the same exactly when their fields are. -/
theorem commandWord_inj {o p : BitVec 4} {a b c d : Word} :
    commandWord o a b = commandWord p c d ↔ o = p ∧ a = c ∧ b = d := by
  constructor
  · intro h
    exact ⟨by simpa using congrArg opField h, by simpa using congrArg aField h, by simpa using congrArg bField h⟩
  · rintro ⟨rfl, rfl, rfl⟩
    rfl

/-! ## The operand check of each format (30_encoding.md R61, R62) -/

theorem checked_fN (a b : Word) (i : Instr) :
    checked .fN a b i = if a ≠ 0#32 ∨ b ≠ 0#32 then .reject .reservedOperand else .execute i := by
  by_cases ha : a = 0#32 <;> by_cases hb : b = 0#32 <;> simp [checked, mustBeZeroClear, ha, hb]

/-- The bits of A above the byte are zero exactly when A is a byte. -/
theorem highBits_eq_zero_iff (a : Word) : a.extractLsb' 8 24 = 0#24 ↔ a.toNat < 256 := by
  have := a.isLt
  rw [← BitVec.toNat_inj, BitVec.extractLsb'_toNat, Nat.shiftRight_eq_div_pow, BitVec.toNat_ofNat]
  omega

theorem checked_fA8 (a b : Word) (i : Instr) :
    checked .fA8 a b i = if 256 ≤ a.toNat ∨ b ≠ 0#32 then .reject .reservedOperand else .execute i := by
  by_cases ha : a.toNat < 256 <;> by_cases hb : b = 0#32 <;>
    simp [checked, mustBeZeroClear, highBits_eq_zero_iff, ha, hb, Nat.not_le.mpr, Nat.le_of_not_lt]

theorem word_ne_zero_iff (a : Word) : a ≠ 0#32 ↔ a.toNat ≠ 0 := BitVec.toNat_inj.not.symm

theorem checked_fN_toNat (a b : Word) (i : Instr) :
    checked .fN a b i = if a.toNat ≠ 0 ∨ b.toNat ≠ 0 then .reject .reservedOperand else .execute i := by
  simp only [checked_fN, word_ne_zero_iff]

theorem checked_fA8_toNat (a b : Word) (i : Instr) :
    checked .fA8 a b i = if a.toNat / 2 ^ 8 ≠ 0 ∨ b.toNat ≠ 0 then .reject .reservedOperand else .execute i := by
  have hbyte : 256 ≤ a.toNat ↔ a.toNat / 2 ^ 8 ≠ 0 := by omega
  simp only [checked_fA8, hbyte, word_ne_zero_iff]

/-- The byte operand, given as a whole A. -/
theorem lowByteOf_eq_ofNat (a : Word) : lowByteOf a = BitVec.ofNat 8 a.toNat := by
  rw [Machine.lowByteOf_eq_setWidth]
  rfl

theorem setWidth_lowByteOf {a : Word} (h : a.toNat < 256) : (lowByteOf a).setWidth 32 = a := by
  apply BitVec.eq_of_toNat_eq
  rw [lowByteOf_eq_ofNat, BitVec.toNat_setWidth, BitVec.toNat_ofNat]
  omega

theorem setWidth_toNat_lt (c : Byte) : (c.setWidth 32).toNat < 256 := by
  rw [← Machine.zext32, Machine.zext32_toNat]
  exact c.isLt

/-! ## What each opcode decodes to (30_encoding.md R63) -/

theorem decode_nop_word (a b : Word) : decode (commandWord 0x0#4 a b) = checked .fN a b .nop :=
  decode_commandWord _ _ _
theorem decode_xor_word (a b : Word) : decode (commandWord 0x1#4 a b) = .execute (.xor a b) :=
  decode_commandWord _ _ _
theorem decode_and_word (a b : Word) : decode (commandWord 0x2#4 a b) = .execute (.and a b) :=
  decode_commandWord _ _ _
theorem decode_shr_word (a b : Word) : decode (commandWord 0x3#4 a b) = .execute (.shr a b) :=
  decode_commandWord _ _ _
theorem decode_crcinit_word (a b : Word) : decode (commandWord 0x4#4 a b) = checked .fN a b .crcinit :=
  decode_commandWord _ _ _
theorem decode_crcbyte_word (a b : Word) :
    decode (commandWord 0x5#4 a b) = checked .fA8 a b (.crcbyte (lowByteOf a)) :=
  decode_commandWord _ _ _
theorem decode_crcread_word (a b : Word) : decode (commandWord 0x6#4 a b) = checked .fN a b .crcread :=
  decode_commandWord _ _ _
theorem decode_tread_word (a b : Word) : decode (commandWord 0x7#4 a b) = checked .fA8 a b (.tread (lowByteOf a)) :=
  decode_commandWord _ _ _

/-- The eight assigned opcodes, and the reserved ones. -/
theorem opcode_cases (op : BitVec 4) :
    op = 0x0#4 ∨ op = 0x1#4 ∨ op = 0x2#4 ∨ op = 0x3#4 ∨ op = 0x4#4 ∨ op = 0x5#4 ∨ op = 0x6#4 ∨ op = 0x7#4 ∨
      8 ≤ op.toNat := by
  revert op
  decide

/-- A reserved opcode is rejected whatever the operands are (30_encoding.md R65). -/
theorem decode_reserved_word {op : BitVec 4} (h : 8 ≤ op.toNat) (a b : Word) :
    decode (commandWord op a b) = .reject .illegalOpcode := by
  obtain ⟨n, hn⟩ := Nat.exists_eq_add_of_le' h
  rw [decode_commandWord, hn]
  rfl

/-- A word decodes as its opcode's row says of its two operand fields. -/
theorem decode_of_opcode {w : CommandWord} {op : BitVec 4} (h : opField w = op) :
    decode w = decode (commandWord op (aField w) (bField w)) := by
  rw [← h, commandWord_fields]

/-! ## Decoding and encoding are inverse -/

theorem decode_encode (i : Instr) : decode (encode i) = .execute i := by
  cases i with
  | nop => exact decode_nop_word _ _
  | xor a b => exact decode_xor_word a b
  | and a b => exact decode_and_word a b
  | shr a n => exact decode_shr_word a n
  | crcinit => exact decode_crcinit_word _ _
  | crcbyte c =>
    rw [encode, decode_crcbyte_word, checked_fA8, if_neg (by simpa using setWidth_toNat_lt c), Machine.lowByteOf_zext]
  | crcread => exact decode_crcread_word _ _
  | tread k =>
    rw [encode, decode_tread_word, checked_fA8, if_neg (by simpa using setWidth_toNat_lt k), Machine.lowByteOf_zext]

/-- A word of an F_N row that passes its operand check has nothing but its opcode. -/
theorem checked_fN_execute {a b : Word} {i j : Instr} (h : checked .fN a b i = .execute j) :
    j = i ∧ a = 0#32 ∧ b = 0#32 := by
  rw [checked_fN] at h
  split at h
  case isTrue => cases h
  case isFalse hz =>
    cases h
    simpa using hz

/-- A word of an F_A8 row that passes its operand check has nothing but its opcode and its byte. -/
theorem checked_fA8_execute {a b : Word} {i j : Instr} (h : checked .fA8 a b i = .execute j) :
    j = i ∧ (lowByteOf a).setWidth 32 = a ∧ b = 0#32 := by
  rw [checked_fA8] at h
  split at h
  case isTrue => cases h
  case isFalse hz =>
    cases h
    rw [not_or, Nat.not_le, not_not] at hz
    exact ⟨rfl, setWidth_lowByteOf hz.1, hz.2⟩

theorem encode_of_decode_commandWord {op : BitVec 4} {a b : Word} {i : Instr}
    (h : decode (commandWord op a b) = .execute i) : encode i = commandWord op a b := by
  obtain rfl | rfl | rfl | rfl | rfl | rfl | rfl | rfl | hop := opcode_cases op
  · obtain ⟨rfl, rfl, rfl⟩ := checked_fN_execute ((decode_nop_word a b).symm.trans h)
    rfl
  · cases (decode_xor_word a b).symm.trans h
    rfl
  · cases (decode_and_word a b).symm.trans h
    rfl
  · cases (decode_shr_word a b).symm.trans h
    rfl
  · obtain ⟨rfl, rfl, rfl⟩ := checked_fN_execute ((decode_crcinit_word a b).symm.trans h)
    rfl
  · obtain ⟨rfl, ha, rfl⟩ := checked_fA8_execute ((decode_crcbyte_word a b).symm.trans h)
    rw [encode, ha]
  · obtain ⟨rfl, rfl, rfl⟩ := checked_fN_execute ((decode_crcread_word a b).symm.trans h)
    rfl
  · obtain ⟨rfl, ha, rfl⟩ := checked_fA8_execute ((decode_tread_word a b).symm.trans h)
    rw [encode, ha]
  · cases (decode_reserved_word hop a b).symm.trans h

/-- Decoding to a command is being its word: each command has one word, and each word at most one command. -/
theorem decode_eq_execute_iff {w : CommandWord} {i : Instr} : decode w = .execute i ↔ w = encode i := by
  constructor
  · intro h
    rw [← commandWord_fields w] at h
    rw [encode_of_decode_commandWord h, commandWord_fields]
  · rintro rfl
    exact decode_encode i

/-! ## Which words the rows select (30_encoding.md R64) -/

theorem Row.selects_iff {r : Row} {w : CommandWord} : r.selects w = true ↔ w &&& r.mask = r.matchBits := beq_iff_eq

/-- The mask of an F_N row keeps the whole word. -/
theorem and_fullMask (w : CommandWord) : w &&& 0xFFFFFFFFFFFFFFFFF#68 = w := BitVec.and_allOnes

/-- An F_AB row selects the words of its opcode. -/
theorem and_opcodeMask_eq_iff {w : CommandWord} {op : BitVec 4} :
    w &&& 0xF0000000000000000#68 = commandWord op 0#32 0#32 ↔ ∃ a b, w = commandWord op a b := by
  constructor
  · intro h
    rw [← commandWord_fields w, Laws.EncodedInRow.and_opcode_mask, commandWord_inj] at h
    exact ⟨aField w, bField w, by rw [← h.1, commandWord_fields]⟩
  · rintro ⟨a, b, rfl⟩
    exact Laws.EncodedInRow.and_opcode_mask op a b

/-- A word with no bit above bit 7 is a zero-extended byte. -/
theorem toNat_lt_of_and_high_eq_zero {a : Word} (h : a &&& 0xFFFFFF00#32 = 0#32) : a.toNat < 256 := by
  apply Nat.lt_pow_two_of_testBit (n := 8)
  intro i hi
  by_cases h32 : i < 32
  · have hbit : (a &&& 0xFFFFFF00#32).getLsbD i = false := by rw [h, BitVec.getLsbD_zero]
    have hm : (0xFFFFFF00#32).getLsbD i = true := by interval_cases i <;> rfl
    rwa [BitVec.getLsbD_and, hm, Bool.and_true] at hbit
  · exact BitVec.getLsbD_of_ge a i (by omega)

/-- An F_A8 row selects the words of its opcode with a byte in A and nothing in B. -/
theorem and_byteMask_eq_iff {w : CommandWord} {op : BitVec 4} :
    w &&& 0xFFFFFFF00FFFFFFFF#68 = commandWord op 0#32 0#32 ↔
      ∃ c : Byte, w = commandWord op (c.setWidth 32) 0#32 := by
  constructor
  · intro h
    have hmask : 0xFFFFFFF00FFFFFFFF#68 = commandWord 0xF#4 0xFFFFFF00#32 0xFFFFFFFF#32 := by decide
    rw [← commandWord_fields w, hmask, commandWord_and, opcode_and_ones, commandWord_inj] at h
    obtain ⟨hop, ha, hb⟩ := h
    have hb : bField w = 0#32 := BitVec.and_allOnes.symm.trans hb
    refine ⟨lowByteOf (aField w), ?_⟩
    rw [setWidth_lowByteOf (toNat_lt_of_and_high_eq_zero ha), ← hop, ← hb, commandWord_fields]
  · rintro ⟨c, rfl⟩
    exact Laws.EncodedInRow.and_byte_mask op c

/-- Every row's mask keeps the opcode, so the row that selects a word has the word's opcode. -/
theorem opField_of_selects {r : Row} (hr : r ∈ rows) {w : CommandWord} (h : r.selects w = true) :
    opField w = opField r.matchBits := by
  have hmask : opField r.mask = 0xF#4 := (by decide : ∀ r ∈ rows, opField r.mask = 0xF#4) r hr
  have hsel : w &&& r.mask = r.matchBits := Row.selects_iff.mp h
  calc opField w
    _ = opField w &&& opField r.mask := by rw [hmask, opcode_and_ones]
    _ = opField (w &&& r.mask) := BitVec.extractLsb'_and.symm
    _ = opField r.matchBits := by rw [hsel]

/-- No two rows match one word: each row has an opcode of its own. -/
theorem rows_do_not_overlap {w : CommandWord} {r₁ r₂ : Row} (h₁ : r₁ ∈ rows) (h₂ : r₂ ∈ rows)
    (s₁ : r₁.selects w = true) (s₂ : r₂.selects w = true) : r₁ = r₂ :=
  (by decide : ∀ r₁ ∈ rows, ∀ r₂ ∈ rows, opField r₁.matchBits = opField r₂.matchBits → r₁ = r₂) r₁ h₁ r₂ h₂
    ((opField_of_selects h₁ s₁).symm.trans (opField_of_selects h₂ s₂))

/-- Every command's encoding selects the command's own row. -/
theorem encode_in_row (i : Instr) : Laws.EncodedInRow.Statement i := by
  cases i with
  | nop => exact Laws.EncodedInRow.nop
  | xor a b => exact Laws.EncodedInRow.xor a b
  | and a b => exact Laws.EncodedInRow.and a b
  | shr a n => exact Laws.EncodedInRow.shr a n
  | crcinit => exact Laws.EncodedInRow.crcinit
  | crcbyte c => exact Laws.EncodedInRow.crcbyte c
  | crcread => exact Laws.EncodedInRow.crcread
  | tread k => exact Laws.EncodedInRow.tread k

theorem wellFormedWord_encode (i : Instr) : wellFormedWord (encode i) = true :=
  List.any_eq_true.mpr ⟨i.row, (encode_in_row i).2, (encode_in_row i).1⟩

/-- A word that some row selects is the encoding of a command of that row. -/
theorem exists_encode_of_selects {r : Row} (hr : r ∈ rows) {w : CommandWord} (h : r.selects w = true) :
    ∃ i, w = encode i := by
  have hsel : w &&& r.mask = r.matchBits := Row.selects_iff.mp h
  simp only [rows, List.mem_cons, List.not_mem_nil, or_false] at hr
  obtain rfl | rfl | rfl | rfl | rfl | rfl | rfl | rfl := hr
  · exact ⟨.nop, (and_fullMask w).symm.trans hsel⟩
  · obtain ⟨a, b, rfl⟩ := and_opcodeMask_eq_iff (op := 0x1#4).mp hsel
    exact ⟨.xor a b, rfl⟩
  · obtain ⟨a, b, rfl⟩ := and_opcodeMask_eq_iff (op := 0x2#4).mp hsel
    exact ⟨.and a b, rfl⟩
  · obtain ⟨a, b, rfl⟩ := and_opcodeMask_eq_iff (op := 0x3#4).mp hsel
    exact ⟨.shr a b, rfl⟩
  · exact ⟨.crcinit, (and_fullMask w).symm.trans hsel⟩
  · obtain ⟨c, rfl⟩ := and_byteMask_eq_iff (op := 0x5#4).mp hsel
    exact ⟨.crcbyte c, rfl⟩
  · exact ⟨.crcread, (and_fullMask w).symm.trans hsel⟩
  · obtain ⟨c, rfl⟩ := and_byteMask_eq_iff (op := 0x7#4).mp hsel
    exact ⟨.tread c, rfl⟩

/-- Being well-formed by the rows (R64) is decoding to a command by the fields (R65). -/
theorem wellFormedWord_iff (w : CommandWord) : wellFormedWord w = true ↔ ∃ i, decode w = .execute i := by
  constructor
  · intro h
    obtain ⟨r, hr, hsel⟩ := List.any_eq_true.mp h
    obtain ⟨i, hw⟩ := exists_encode_of_selects hr hsel
    exact ⟨i, decode_eq_execute_iff.mpr hw⟩
  · rintro ⟨i, h⟩
    rw [decode_eq_execute_iff.mp h]
    exact wellFormedWord_encode i

/-- A word that is rejected with neither code decodes to a command. -/
theorem not_rejected_iff (d : Decoded) :
    d ≠ .reject .illegalOpcode ∧ d ≠ .reject .reservedOperand ↔ ∃ i, d = .execute i := by
  cases d with
  | execute i => simp
  | reject code => cases code <;> simp

end Sys2Proof

namespace Sys2Proof.Proofs

open Sys2Proof.Machine

/-- Settles O5, by the command: its opcode's row and its format's operand check give it back. -/
theorem decodeOfEncodeIsTheCommand : Obligations.DecodeOfEncodeIsTheCommand := fun i =>
  ⟨decode_encode i, wellFormedWord_encode i⟩

/-- Settles O6, by the word's opcode: the operand check leaves no bit that the encoding would not set. -/
theorem encodeOfDecodeIsTheWord : Obligations.EncodeOfDecodeIsTheWord := fun _ _ h =>
  (decode_eq_execute_iff.mp h).symm

/-- Settles O1: the word's number is put together from its quotients and remainders by 2^64 and 2^32. -/
theorem commandWordIsItsThreeFields : Obligations.CommandWordIsItsThreeFields := by
  refine ⟨fun w => ?_, fun op a b => ⟨opField_commandWord op a b, aField_commandWord op a b, bField_commandWord op a b⟩⟩
  rw [opField_toNat, aField_toNat, bField_toNat]
  omega

/-- Settles O2, by the decoder's row of each opcode and the operand check of each format. -/
theorem formatsUseTheirBitsAndRejectTheRest : Obligations.FormatsUseTheirBitsAndRejectTheRest := by
  intro a b
  refine ⟨⟨decode_xor_word a b, decode_and_word a b, decode_shr_word a b⟩, ?_, ?_, ?_, ?_⟩
  · rintro ⟨ha, hb⟩
    have hok (i : Instr) : checked .fA8 a b i = .execute i := by
      rw [checked_fA8, if_neg (by simpa [hb] using ha)]
    rw [← lowByteOf_eq_ofNat]
    exact ⟨(decode_crcbyte_word a b).trans (hok _), (decode_tread_word a b).trans (hok _)⟩
  · intro h
    have hrej (i : Instr) : checked .fA8 a b i = .reject .reservedOperand := by rw [checked_fA8, if_pos h]
    exact ⟨(decode_crcbyte_word a b).trans (hrej _), (decode_tread_word a b).trans (hrej _)⟩
  · rintro ⟨rfl, rfl⟩
    exact ⟨decode_nop_word _ _, decode_crcinit_word _ _, decode_crcread_word _ _⟩
  · intro h
    have hrej (i : Instr) : checked .fN a b i = .reject .reservedOperand := by rw [checked_fN, if_pos h]
    exact ⟨(decode_nop_word a b).trans (hrej _), (decode_crcinit_word a b).trans (hrej _),
      (decode_crcread_word a b).trans (hrej _)⟩

/-- Settles O3: decoding to a command is being its word, and a row's mask and match select the words of its opcode and
format. -/
theorem matchAndMaskRowsSelectTheCommands : Obligations.MatchAndMaskRowsSelectTheCommands := by
  intro w
  simp only [decode_eq_execute_iff, and_fullMask]
  exact ⟨Iff.rfl, (and_opcodeMask_eq_iff (op := 0x1#4)).symm, (and_opcodeMask_eq_iff (op := 0x2#4)).symm,
    (and_opcodeMask_eq_iff (op := 0x3#4)).symm, Iff.rfl, (and_byteMask_eq_iff (op := 0x5#4)).symm, Iff.rfl,
    (and_byteMask_eq_iff (op := 0x7#4)).symm, fun _ h₁ _ h₂ => rows_do_not_overlap h₁ h₂⟩

/-- Settles O4, by the decoder's row of each opcode, read by the word's number; a word is well-formed exactly when it
decodes to a command. -/
theorem decodingIsTotalAndOpcodeComesFirst : Obligations.DecodingIsTotalAndOpcodeComesFirst := by
  intro w
  have hop (op : BitVec 4) (h : w.toNat / 2 ^ 64 = op.toNat) : opField w = op :=
    BitVec.eq_of_toNat_eq ((opField_toNat w).trans h)
  simp only [← aField_toNat, ← bField_toNat, BitVec.ofNat_toNat, BitVec.setWidth_eq, ← lowByteOf_eq_setWidth]
  refine ⟨fun h => ?_, fun h => ?_, fun h => ?_, fun h => ?_, fun h => ?_, fun h => ?_, fun h => ?_, fun h => ?_,
    fun h => ?_, (not_rejected_iff _).trans (wellFormedWord_iff w).symm⟩
  · rw [← opField_toNat] at h
    rw [← commandWord_fields w, decode_reserved_word h]
  · rw [decode_of_opcode (hop 0x0#4 h), decode_nop_word, checked_fN_toNat]
  · rw [decode_of_opcode (hop 0x1#4 h), decode_xor_word]
  · rw [decode_of_opcode (hop 0x2#4 h), decode_and_word]
  · rw [decode_of_opcode (hop 0x3#4 h), decode_shr_word]
  · rw [decode_of_opcode (hop 0x4#4 h), decode_crcinit_word, checked_fN_toNat]
  · rw [decode_of_opcode (hop 0x5#4 h), decode_crcbyte_word, checked_fA8_toNat]
  · rw [decode_of_opcode (hop 0x6#4 h), decode_crcread_word, checked_fN_toNat]
  · rw [decode_of_opcode (hop 0x7#4 h), decode_tread_word, checked_fA8_toNat]

end Sys2Proof.Proofs
end

section
/-! PROOFS. The assembler (30_encoding.md R69, R70), from what each kind of line assembles to and when it is an assembly
error, and the all-zero word (R68). -/

namespace Sys2Proof.Machine

/-! ## Literals -/

@[simp] theorem literal32_toNat (v : Word) : literal32 v.toNat = some v := by
  rw [literal32, if_pos v.isLt, BitVec.ofNat_toNat, BitVec.setWidth_eq]

@[simp] theorem literal8_toNat (v : Byte) : literal8 v.toNat = some v := by
  rw [literal8, if_pos v.isLt, BitVec.ofNat_toNat, BitVec.setWidth_eq]

@[simp] theorem literal32_isSome (v : Nat) : (literal32 v).isSome = decide (v < 2 ^ 32) := by
  rw [Bool.eq_iff_iff, literal32, Option.isSome_ite, decide_eq_true_iff]

@[simp] theorem literal8_isSome (v : Nat) : (literal8 v).isSome = decide (v < 2 ^ 8) := by
  rw [Bool.eq_iff_iff, literal8, Option.isSome_ite, decide_eq_true_iff]

/-! ## Lines (30_encoding.md R69, R70) -/

@[simp] theorem assembleAB_toNat (ctor : Word → Word → Instr) (a b : Word) :
    assembleAB ctor a.toNat b.toNat = some [ctor a b] := by
  rw [assembleAB, literal32_toNat, literal32_toNat]

@[simp] theorem assembleA8_toNat (ctor : Byte → Instr) (c : Byte) : assembleA8 ctor c.toNat = some [ctor c] := by
  rw [assembleA8, literal8_toNat, Option.map_some]

theorem assembleAB_isSome (ctor : Word → Word → Instr) (a b : Nat) :
    (assembleAB ctor a b).isSome = (decide (a < 2 ^ 32) && decide (b < 2 ^ 32)) := by
  rw [← literal32_isSome, ← literal32_isSome, assembleAB]
  cases literal32 a <;> cases literal32 b <;> rfl

theorem assembleA8_isSome (ctor : Byte → Instr) (v : Nat) :
    (assembleA8 ctor v).isSome = decide (v < 2 ^ 8) := by
  rw [assembleA8, Option.isSome_map, literal8_isSome]

theorem assembleString_cons (c : Char) (cs : List Char) :
    assembleString (c :: cs) =
      if c.toNat < 2 ^ 8 then (assembleString cs).map (.crcbyte (codepoint c) :: ·) else none := by
  rw [assembleString, literal8]
  split_ifs
  · cases assembleString cs <;> rfl
  · rfl

/-- A string of one-byte characters is one CRCBYTE a character, in order. -/
theorem assembleString_of_bytes {str : List Char} (h : ∀ c ∈ str, c.toNat < 2 ^ 8) :
    assembleString str = some ((str.map codepoint).map .crcbyte) := by
  induction str with
  | nil => rfl
  | cons c cs ih =>
    rw [List.forall_mem_cons] at h
    rw [assembleString_cons, if_pos h.1, ih h.2]
    rfl

theorem checksum_line_eq (str : List Char) :
    assemble (.checksum str) = (assembleString str).map fun body => .crcinit :: (body ++ [.crcread]) := rfl

theorem assembleString_isSome (str : List Char) :
    (assembleString str).isSome = str.all fun c => decide (c.toNat < 2 ^ 8) := by
  induction str with
  | nil => rfl
  | cons c cs ih =>
    rw [assembleString_cons, List.all_cons, ← ih]
    split_ifs with hc
    · rw [decide_eq_true hc, Bool.true_and, Option.isSome_map]
    · rw [decide_eq_false hc, Bool.false_and, Option.isSome_none]

/-- One character of a code above a byte makes the whole string an assembly error. -/
theorem assembleString_of_wide {str : List Char} {c : Char} (hc : c ∈ str) (h : 255 < c.toNat) :
    assembleString str = none := by
  rw [← Option.not_isSome_iff_eq_none, assembleString_isSome, List.all_eq_true]
  intro hall
  have hbyte : c.toNat < 2 ^ 8 := of_decide_eq_true (hall c hc)
  omega

/-- A line assembles exactly when its literals and its characters are in range. -/
theorem assemble_isSome (line : AsmLine) : (assemble line).isSome = line.wellFormed := by
  cases line with
  | nop | crcinit | crcread | clrres => rfl
  | xor a b | and a b | shr a b => exact assembleAB_isSome _ a b
  | crcbyte v | tread v => exact assembleA8_isSome _ v
  | li v => simp [assemble, assembleAB_isSome, AsmLine.wellFormed]
  | crcstr str => exact assembleString_isSome str
  | checksum str => rw [checksum_line_eq, Option.isSome_map, assembleString_isSome]; rfl

/-- A zero-extended byte written as the spec's 24 zeros and the byte. -/
theorem setWidth_eq_append (c : Byte) : c.setWidth 32 = 0#24 ++ c :=
  BitVec.setWidth_eq_append (by omega)

end Sys2Proof.Machine

namespace Sys2Proof.Proofs

open Sys2Proof.Machine

/-- Settles O49: LI and CLRRES are XOR lines, and a string assembles to its CRCBYTEs exactly when its characters are
bytes. -/
theorem pseudoInstructionsExpand : Obligations.PseudoInstructionsExpand := by
  refine ⟨fun v => assembleAB_toNat .xor v 0#32, assembleAB_toNat .xor 0#32 0#32, fun str h => ?_,
    fun str c hc h => ?_⟩
  · have hstr := assembleString_of_bytes fun c hc => Nat.lt_succ_of_le (h c hc)
    exact ⟨hstr.trans (congrArg some List.map_map), congrArg (Option.map _) hstr⟩
  · have hstr := assembleString_of_wide hc h
    exact ⟨hstr, congrArg (Option.map _) hstr⟩

/-- Settles O50: acceptance by the kind of line, and each row's word from its literals. -/
theorem assemblerAcceptsExactlyTheLiteralsInRange : Obligations.AssemblerAcceptsExactlyTheLiteralsInRange := by
  refine ⟨assemble_isSome, fun a b => ?_, fun c => ?_, by decide, by decide, by decide⟩
  · simp only [assemble, assembleAB_toNat]
    exact ⟨rfl, rfl, rfl⟩
  · simp only [assemble, assembleA8_toNat, ← setWidth_eq_append]
    exact ⟨rfl, rfl⟩

/-- Settles O8: the all-zero word is NOP's encoding, and NOP's effect is the state it runs in. -/
theorem allZeroWordChangesNothing : Obligations.AllZeroWordChangesNothing := by
  intro s rest
  have hdecode : decode 0#68 = .execute .nop := decode_encode .nop
  refine ⟨hdecode, fun ha hp hs => ?_⟩
  have hstep := step_present ha hp hs
  have hnop : afterWord 0#68 s = s := by simpa using (afterWord_of_execute hdecode s).symm
  rw [hnop] at hstep
  exact ⟨_, hstep, rfl, rfl, rfl, rfl, rfl, hp, rfl, rfl, rfl⟩

end Sys2Proof.Proofs
end

section
/-! PROOFS. The BitOps family (40_bitops.md): the laws of xor, and and shr as functions, then the three commands, each of
which writes its function of the operands to RES and nothing else. -/

namespace Sys2Proof.Machine

/-! ## xor and and (40_bitops.md R80, R81, R84, R85) -/

@[simp] theorem bitXor_self (a : Word) : bitXor a a = 0#32 := BitVec.xor_self

@[simp] theorem bitXor_zero (a : Word) : bitXor a 0#32 = a := BitVec.xor_zero

@[simp] theorem bitXor_ones (a : Word) : bitXor a 0xFFFFFFFF#32 = ~~~a := BitVec.xor_allOnes

@[simp] theorem bitAnd_self (a : Word) : bitAnd a a = a := BitVec.and_self

@[simp] theorem bitAnd_zero (a : Word) : bitAnd a 0#32 = 0#32 := BitVec.and_zero

@[simp] theorem bitAnd_ones (a : Word) : bitAnd a 0xFFFFFFFF#32 = a := BitVec.and_allOnes

theorem bitXor_comm (a b : Word) : bitXor a b = bitXor b a := BitVec.xor_comm a b

theorem bitXor_assoc (a b c : Word) : bitXor (bitXor a b) c = bitXor a (bitXor b c) := BitVec.xor_assoc a b c

theorem bitAnd_comm (a b : Word) : bitAnd a b = bitAnd b a := BitVec.and_comm a b

theorem bitAnd_assoc (a b c : Word) : bitAnd (bitAnd a b) c = bitAnd a (bitAnd b c) := BitVec.and_assoc a b c

/-- `and` distributes over `xor` as it does in each bit (40_bitops.md R85). -/
theorem bitAnd_bitXor_distrib (a b c : Word) : bitAnd a (bitXor b c) = bitXor (bitAnd a b) (bitAnd a c) := by
  apply BitVec.eq_of_getLsbD_eq
  intro i _
  simp only [bitAnd_getLsbD, bitXor_getLsbD, Bool.and_xor_distrib_left]

theorem bitXor_toNat (a b : Word) : (bitXor a b).toNat = a.toNat ^^^ b.toNat := BitVec.toNat_xor a b

theorem bitAnd_toNat (a b : Word) : (bitAnd a b).toNat = a.toNat &&& b.toNat := BitVec.toNat_and a b

/-! ## shr (40_bitops.md R82, R85) -/

@[simp] theorem shr_zero (a : Word) : shr a 0 = a := BitVec.ushiftRight_zero a

theorem shr_bitXor (a b : Word) (n : Nat) : shr (bitXor a b) n = bitXor (shr a n) (shr b n) :=
  BitVec.ushiftRight_xor_distrib a b n

theorem shr_bitAnd (a b : Word) (n : Nat) : shr (bitAnd a b) n = bitAnd (shr a n) (shr b n) :=
  BitVec.ushiftRight_and_distrib a b n

theorem shr_shr (a : Word) (m n : Nat) : shr (shr a m) n = shr a (m + n) := (BitVec.shiftRight_add a m n).symm

/-- Zeros come in at the top, with no sign extension: bit i is a's bit i + n while there is one. -/
theorem shr_getLsbD_zeros_above (a : Word) (n i : Nat) :
    (shr a n).getLsbD i = (decide (i + n ≤ 31) && a.getLsbD (i + n)) := by
  rw [shr_getLsbD, Nat.add_comm]
  by_cases h : i + n ≤ 31
  · rw [decide_eq_true h, Bool.true_and]
  · rw [decide_eq_false h, Bool.false_and, BitVec.getLsbD_of_ge a _ (by omega)]

/-- A count of 31 leaves the top bit alone. -/
theorem shr_31_toNat (a : Word) : (shr a 31).toNat = (a.getLsbD 31).toNat := by
  have hlt := a.isLt
  have hbit : (a.getLsbD 31).toNat = a.toNat / 2 ^ 31 % 2 := Nat.toNat_testBit a.toNat 31
  rw [shr_toNat, hbit]
  omega

/-! ## Writing RES -/

theorem onlyResWritten_writeRes (s : State) (v : Word) : OnlyResWritten s (s.writeRes v) :=
  ⟨rfl, rfl, rfl, rfl, rfl, rfl, rfl, rfl⟩

/-- A command that writes the same result in every state depends on its operands alone (40_bitops.md R83). -/
theorem result_independent_of_state {i : Instr} {v : Word} {n : Nat} (hexec : ∀ s, exec i s = .next (s.writeRes v))
    (hv : v.toNat = n) (s₁ s₂ : State) :
    ∃ t₁ t₂, exec i s₁ = .next t₁ ∧ exec i s₂ = .next t₂ ∧ t₁.res = t₂.res ∧ t₁.res.toNat = n ∧
      t₁.res.toNat ≤ 2 ^ 32 - 1 :=
  ⟨s₁.writeRes v, s₂.writeRes v, hexec s₁, hexec s₂, rfl, hv, Nat.le_sub_one_of_lt v.isLt⟩

end Sys2Proof.Machine

namespace Sys2Proof.Proofs

open Sys2Proof.Machine

/-- Settles O13: XOR writes `bitXor a b` to RES, whose bits and corner values are its laws. -/
theorem xorWritesTheBitwiseExclusiveOr : Obligations.XorWritesTheBitwiseExclusiveOr := by
  intro a b s
  refine ⟨decode_xor_word a b, s.writeRes (bitXor a b), exec_xor a b s, fun i _ => bitXor_getLsbD a b i,
    onlyResWritten_writeRes s _, ?_, ?_, ?_, ?_, ?_⟩
  · rintro rfl
    exact bitXor_self _
  · rintro rfl
    exact bitXor_zero a
  · rintro rfl
    exact bitXor_ones a
  · rintro rfl rfl
    rfl
  · rintro rfl rfl
    rfl

/-- Settles O14: AND writes `bitAnd a b` to RES, whose bits and corner values are its laws. -/
theorem andWritesTheBitwiseConjunction : Obligations.AndWritesTheBitwiseConjunction := by
  intro a b s
  refine ⟨decode_and_word a b, s.writeRes (bitAnd a b), exec_and a b s, fun i _ => bitAnd_getLsbD a b i,
    onlyResWritten_writeRes s _, ?_, ?_, ?_, ?_, ?_⟩
  · rintro rfl
    exact bitAnd_self _
  · rintro rfl
    exact bitAnd_zero a
  · rintro rfl
    exact bitAnd_ones a
  · rintro rfl rfl
    rfl
  · rintro rfl rfl
    rfl

/-- Settles O15: SHR writes `shr a n` to RES for the whole count, read as a quotient and bit by bit. -/
theorem shrWritesTheFloorOfTheQuotient : Obligations.ShrWritesTheFloorOfTheQuotient := by
  intro a n s
  refine ⟨decode_shr_word a n, s.writeRes (shr a n.toNat), exec_shr a n s, shr_toNat a n.toNat,
    fun i _ => shr_getLsbD_zeros_above a n.toNat i, onlyResWritten_writeRes s _, ?_, ?_,
    fun h => shr_of_width_le a h, ?_, ?_⟩
  · rintro rfl
    exact shr_zero a
  · rintro rfl
    exact shr_31_toNat a
  · rintro rfl rfl
    rfl
  · rintro rfl rfl
    rfl

/-- Settles O16, by the command: each writes one result whatever the state, and its number is the exact one. -/
theorem bitOpsDependOnTheirOperandsAlone : Obligations.BitOpsDependOnTheirOperandsAlone := by
  intro a b s₁ s₂ i hi
  simp only [List.mem_cons, List.not_mem_nil, or_false] at hi
  obtain rfl | rfl | rfl := hi
  · exact result_independent_of_state (exec_xor a b) (bitXor_toNat a b) s₁ s₂
  · exact result_independent_of_state (exec_and a b) (bitAnd_toNat a b) s₁ s₂
  · exact result_independent_of_state (exec_shr a b) (shr_toNat a b.toNat) s₁ s₂

/-- Settles O17, law by law; the counts of a double shift add as naturals, so no bound on them is needed. -/
theorem bitOpsLaws : Obligations.BitOpsLaws :=
  ⟨fun a => ⟨bitXor_self a, bitAnd_self a⟩, rfl, rfl,
    fun a b c => ⟨bitXor_comm a b, bitXor_assoc a b c, bitXor_zero a, bitAnd_comm a b, bitAnd_assoc a b c,
      bitAnd_ones a, bitAnd_bitXor_distrib a b c⟩,
    fun a b m n _ _ => ⟨shr_bitXor a b n, shr_bitAnd a b n, shr_shr a m n⟩, bitAnd_shr_mask24⟩

end Sys2Proof.Proofs
end

section
/-! PROOFS. The checksum as a function (42_checksum.md R90 to R98): one round of the table's loop is linear over GF(2),
so TableEntry is; and a byte taken through TABLE is its eight bits taken one by one, so the two checksums agree. -/

namespace Sys2Proof.Machine

/-! ## One round of TableEntry's loop (42_checksum.md R90) -/

/-- "hash is odd" is its bit 0 (00_scope.md R18). -/
theorem bitAnd_one_eq_one_iff (hash : Word) : bitAnd hash 1#32 = 1#32 ↔ hash.getLsbD 0 = true := by
  rw [← BitVec.toNat_inj, bitAnd_toNat, BitVec.getLsbD_eq_getElem (by omega)]
  simp [BitVec.getElem_eq_testBit_toNat, Nat.testBit_zero]

/-- What a round xors in: the polynomial when the bit that leaves is set, else nothing. -/
def feedback (leaving : Bool) : Word := if leaving then Config.polynomial else 0#32

theorem feedback_xor (p q : Bool) : feedback (p ^^ q) = bitXor (feedback p) (feedback q) := by
  revert p q
  decide

theorem hashStep_eq (hash : Word) : hashStep hash = bitXor (shr hash 1) (feedback (hash.getLsbD 0)) := by
  simp only [hashStep, bitAnd_one_eq_one_iff, feedback]
  split
  · rfl
  · exact (bitXor_zero _).symm

/-- A bit-serial step is a round whose leaving bit is xored with the message bit (log 18). -/
theorem bitSerialStep_eq (crc : Word) (messageBit : Bool) :
    bitSerialStep crc messageBit = bitXor (shr crc 1) (feedback (crc.getLsbD 0 ^^ messageBit)) := by
  simp only [bitSerialStep, feedback]
  split
  · rfl
  · exact (bitXor_zero _).symm

/-- A round is linear over GF(2), as its shift and its feedback are. -/
theorem hashStep_bitXor (a b : Word) : hashStep (bitXor a b) = bitXor (hashStep a) (hashStep b) := by
  simp only [hashStep_eq, bitXor_getLsbD, shr_bitXor, feedback_xor]
  simp only [bitXor]
  ac_rfl

/-- Where bit 0 is clear a round only shifts. -/
theorem hashStep_of_even {hash : Word} (h : hash.getLsbD 0 = false) : hashStep hash = shr hash 1 := by
  rw [hashStep_eq, h]
  exact bitXor_zero _

/-- Rounds are linear over GF(2), as one is. -/
theorem repeatTimes_hashStep_bitXor (n : Nat) (a b : Word) :
    repeatTimes hashStep n (bitXor a b) = bitXor (repeatTimes hashStep n a) (repeatTimes hashStep n b) := by
  induction n generalizing a b with
  | zero => rfl
  | succ n ih => rw [repeatTimes, hashStep_bitXor, ih]; rfl

/-- Rounds over a word whose low bits are clear only shift it. -/
theorem repeatTimes_hashStep_of_low_zero {n : Nat} {hash : Word} (h : ∀ k < n, hash.getLsbD k = false) :
    repeatTimes hashStep n hash = shr hash n := by
  induction n generalizing hash with
  | zero => exact (shr_zero hash).symm
  | succ n ih =>
    have hshifted : ∀ k < n, (shr hash 1).getLsbD k = false := fun k hk => by
      rw [shr_getLsbD]
      exact h (1 + k) (by omega)
    rw [repeatTimes, hashStep_of_even (h 0 n.succ_pos), ih hshifted, shr_shr, Nat.add_comm]

/-! ## TableEntry (42_checksum.md R90, R91) -/

theorem zext32_xor (i j : Byte) : zext32 (i ^^^ j) = bitXor (zext32 i) (zext32 j) := BitVec.setWidth_xor

/-- TableEntry is linear over GF(2) (42_checksum.md R91). -/
theorem tableEntry_xor (i j : Byte) : tableEntry (i ^^^ j) = bitXor (tableEntry i) (tableEntry j) := by
  rw [tableEntry, zext32_xor, repeatTimes_hashStep_bitXor]
  rfl

theorem tableEntry_0 : tableEntry 0#8 = 0#32 := by decide
theorem tableEntry_1 : tableEntry 1#8 = 0x77073096#32 := by decide
theorem tableEntry_128 : tableEntry 128#8 = 0xEDB88320#32 := by decide
theorem tableEntry_255 : tableEntry 255#8 = 0x2D02EF8D#32 := by decide

/-! ## A byte through TABLE is its bits one by one (42_checksum.md R98; log 18) -/

theorem zext32_getLsbD (c : Byte) (k : Nat) : (zext32 c).getLsbD k = c.getLsbD k := by
  rw [zext32, BitVec.getLsbD_setWidth]
  by_cases hk : k < 32
  · rw [decide_eq_true hk, Bool.true_and]
  · rw [decide_eq_false hk, Bool.false_and, BitVec.getLsbD_of_ge c k (by omega)]

/-- The low `n` bits of a register, bit 0 first. -/
def lowBits (n : Nat) (m : Word) : List Bool := (List.range n).map fun k => m.getLsbD k

/-- The bits of a register after its first are those of the register shifted by one. -/
theorem lowBits_succ (n : Nat) (m : Word) : lowBits (n + 1) m = m.getLsbD 0 :: lowBits n (shr m 1) := by
  simp only [lowBits, List.range_succ_eq_map, List.map_cons, List.map_map, shr_getLsbD, Nat.add_comm 1]
  rfl

/-- A round on CRC xored with the message register takes the register's bit 0 and shifts the rest of it. -/
theorem hashStep_bitXor_eq_bitSerialStep (crc m : Word) :
    hashStep (bitXor crc m) = bitXor (bitSerialStep crc (m.getLsbD 0)) (shr m 1) := by
  rw [hashStep_eq, bitSerialStep_eq, bitXor_getLsbD, shr_bitXor]
  simp only [bitXor]
  ac_rfl

/-- `n` rounds on CRC xored with the message register take the register's `n` low bits, and leave what is above them
shifted down. -/
theorem repeatTimes_hashStep_eq_bitSerial (n : Nat) (crc m : Word) :
    repeatTimes hashStep n (bitXor crc m) = bitXor ((lowBits n m).foldl bitSerialStep crc) (shr m n) := by
  induction n generalizing crc m with
  | zero => rw [shr_zero]; rfl
  | succ n ih => rw [repeatTimes, hashStep_bitXor_eq_bitSerialStep, ih, lowBits_succ, shr_shr, Nat.add_comm 1]; rfl

theorem shr_zext32_8 (c : Byte) : shr (zext32 c) 8 = 0#32 := by
  apply BitVec.eq_of_toNat_eq
  rw [shr_toNat, zext32_toNat]
  exact Nat.div_eq_of_lt c.isLt

/-- CRC xored with the byte is the index into TABLE and a rest with no bit below bit 8, which shifts as CRC does. -/
theorem bitXor_zext32_split (crc : Word) (c : Byte) :
    ∃ rest, bitXor crc (zext32 c) = bitXor rest (zext32 (crcIndex crc c)) ∧ (∀ k < 8, rest.getLsbD k = false) ∧
      shr rest 8 = shr crc 8 := by
  refine ⟨bitXor (bitXor crc (zext32 c)) (zext32 (crcIndex crc c)), ?_, fun k hk => ?_, ?_⟩
  · rw [bitXor_assoc, bitXor_self, bitXor_zero]
  · simp [zext32_getLsbD, crcIndex_eq, hk]
  · simp only [shr_bitXor, shr_zext32_8, bitXor_zero]

/-- One iteration of the checksum loop is eight rounds on CRC xored with the byte: the rounds make the index its entry
and only shift the rest. -/
theorem checksumStep_eq_repeatTimes (crc : Word) (c : Byte) :
    checksumStep crc c = repeatTimes hashStep 8 (bitXor crc (zext32 c)) := by
  obtain ⟨rest, hsplit, hlow, hshift⟩ := bitXor_zext32_split crc c
  rw [hsplit, repeatTimes_hashStep_bitXor, repeatTimes_hashStep_of_low_zero hlow, hshift]
  rfl

/-- One iteration of the checksum loop takes the byte's eight bits, bit 0 first (00_scope.md R17). -/
theorem checksumStep_eq_bitSerial (crc : Word) (c : Byte) :
    checksumStep crc c = ((List.range 8).map fun k => c.getLsbD k).foldl bitSerialStep crc := by
  rw [checksumStep_eq_repeatTimes, repeatTimes_hashStep_eq_bitSerial, shr_zext32_8, bitXor_zero, lowBits]
  simp only [zext32_getLsbD]

/-! ## The checksum as a loop (42_checksum.md R97) -/

theorem checksum_append (m : List Byte) (c : Byte) : checksum (m ++ [c]) = checksumStep (checksum m) c :=
  List.foldl_concat ..

/-- Only the low 8 bits of a code point reach the index (42_checksum.md R99). -/
theorem index_reads_low_bits (crc codePoint : Word) :
    bitAnd (bitXor crc codePoint) 0xFF#32 = bitAnd (bitXor crc (zext32 (codePoint.setWidth 8))) 0xFF#32 := by
  apply BitVec.eq_of_getLsbD_eq
  intro k _
  have hmask : (0xFF#32).getLsbD k = decide (k < 8) := by
    rw [show 0xFF#32 = zext32 (BitVec.allOnes 8) from rfl, zext32_getLsbD, BitVec.getLsbD_allOnes]
  simp only [bitAnd_getLsbD, bitXor_getLsbD, zext32_getLsbD, BitVec.getLsbD_setWidth, hmask]
  by_cases hk : k < 8
  · rw [decide_eq_true hk, Bool.true_and]
  · rw [decide_eq_false hk, Bool.and_false, Bool.and_false]

end Sys2Proof.Machine

namespace Sys2Proof.Proofs

open Sys2Proof.Machine

/-- Settles O24: bit by bit, a message is its bytes' bits, and each byte's are one iteration of the loop. -/
theorem checksumIsTheBitSerialReflectedCrc : Obligations.ChecksumIsTheBitSerialReflectedCrc := by
  intro m
  have hstep : checksumStep = fun crc c => ((List.range 8).map fun k => c.getLsbD k).foldl bitSerialStep crc :=
    funext₂ checksumStep_eq_bitSerial
  rw [checksum, bitSerialChecksum, messageBits, List.foldl_flatMap, hstep]
  rfl

/-- Settles O18: the named entries are computed, and linearity is that of the rounds. -/
theorem tableEntryIsLinear : Obligations.TableEntryIsLinear :=
  ⟨tableEntry_0, tableEntry_128, tableEntry_1, tableEntry_255, tableEntry_xor⟩

end Sys2Proof.Proofs
end

section
/-! PROOFS. The four commands of the ChecksumEngine (42_checksum.md R93 to R96), one by one. -/

namespace Sys2Proof.Machine

theorem onlyCrcWritten_writeCrc (s : State) (v : Word) : OnlyCrcWritten s (s.writeCrc v) :=
  ⟨rfl, rfl, rfl, rfl, rfl, rfl, rfl, rfl⟩

/-! ## Rejected operand bits (60_exceptions.md R141, R142) -/

theorem rejectsReserved_of_decode {w : CommandWord} (h : decode w = .reject .reservedOperand) (s : State) :
    RejectsReserved w s :=
  ⟨h, reject .reservedOperand s, by rw [acceptWord, h], errBit_recordRejection _ _, State.ready_reject _ s,
    rfl, rfl, rfl, rfl, rfl, rfl, rfl, rfl⟩

theorem rejectsReserved_of_fN {w : CommandWord} {a b : Word} {i : Instr} (hw : decode w = checked .fN a b i)
    (h : a ≠ 0#32 ∨ b ≠ 0#32) (s : State) : RejectsReserved w s :=
  rejectsReserved_of_decode (by rw [hw, checked_fN, if_pos h]) s

theorem rejectsReserved_of_fA8 {w : CommandWord} {a b : Word} {i : Instr} (hw : decode w = checked .fA8 a b i)
    (h : 256 ≤ a.toNat ∨ b ≠ 0#32) (s : State) : RejectsReserved w s :=
  rejectsReserved_of_decode (by rw [hw, checked_fA8, if_pos h]) s

/-! ## The words of CRCBYTE and TREAD, their operand written as the spec's 24 zeros and the byte -/

theorem decode_crcbyte_byte (c : Byte) : decode (0x5#4 ++ (0#24 ++ c) ++ 0#32) = .execute (.crcbyte c) := by
  rw [← setWidth_eq_append]
  exact decode_encode (.crcbyte c)

theorem decode_tread_byte (i : Byte) : decode (0x7#4 ++ (0#24 ++ i) ++ 0#32) = .execute (.tread i) := by
  rw [← setWidth_eq_append]
  exact decode_encode (.tread i)

/-! ## The index and the update of CRC (42_checksum.md R94) -/

/-- The masked word is already a byte, so that taking its low byte loses nothing. -/
theorem crcIndex_toNat (crc : Word) (c : Byte) :
    (crcIndex crc c).toNat = ((crc ^^^ c.setWidth 32) &&& 0xFF#32).toNat := by
  have hbyte : ((crc ^^^ c.setWidth 32) &&& 0xFF#32).toNat < 2 ^ 8 := by
    rw [BitVec.toNat_and]
    exact Nat.and_lt_two_pow _ (by decide)
  rw [crcIndex, lowByteOf_eq_setWidth, BitVec.toNat_setWidth]
  exact Nat.mod_eq_of_lt hbyte

/-- With the index written as R94 writes it, the lookup gives the entry read. -/
theorem table_getElem?_crcIndex (t : Vector Word 256) (crc : Word) (c : Byte) :
    t[((crc ^^^ c.setWidth 32) &&& 0xFF#32).toNat]? = some (readEntry t (crcIndex crc c)) := by
  rw [← crcIndex_toNat, table_getElem?_eq]

/-- The update without the 24-bit mask, which changes nothing (42_checksum.md R94). -/
theorem crcUpdate_unmasked (t : Vector Word 256) (crc : Word) (c : Byte) :
    crcUpdate t crc c = bitXor (shr crc 8) (readEntry t (crcIndex crc c)) := by
  rw [crcUpdate, bitAnd_shr_mask24]

end Sys2Proof.Machine

namespace Sys2Proof.Proofs

open Sys2Proof.Machine

/-- Settles O19: CRCINIT writes the initial value to CRC, whatever CRC was, and CRCREAD copies it. -/
theorem crcInitSetsTheInitialValue : Obligations.CrcInitSetsTheInitialValue := by
  intro a b s
  exact ⟨decode_encode .crcinit, fun h => rejectsReserved_of_fN (decode_crcinit_word a b) h s,
    s.writeCrc 0xFFFFFFFF#32, (s.writeCrc 0xFFFFFFFF#32).writeRes 0xFFFFFFFF#32,
    exec_crcinit s, rfl, onlyCrcWritten_writeCrc s _, exec_crcinit _, exec_crcread _, rfl⟩

/-- Settles O20: CRCBYTE writes `crcUpdate` to CRC; the corners are `checksumStep`'s on the built table. -/
theorem crcByteUpdatesTheCrc : Obligations.CrcByteUpdatesTheCrc := by
  intro a b c s
  refine ⟨decode_crcbyte_byte c, fun h => rejectsReserved_of_fA8 (decode_crcbyte_word a b) h s,
    s.writeCrc (crcUpdate s.table s.crc c), readEntry s.table (crcIndex s.crc c), exec_crcbyte c s,
    table_getElem?_crcIndex s.table s.crc c, rfl, crcUpdate_unmasked s.table s.crc c, onlyCrcWritten_writeCrc s _,
    fun hbuilt hcrc hc => ?_, fun hbuilt hcrc hc => ?_, fun hbuilt hcrc hc => ?_⟩ <;>
    rw [State.writeCrc_crc, crcUpdate_of_built hbuilt, hcrc, hc]
  · decide
  · decide
  · rw [hbuilt]
    decide

/-- Settles O22: TREAD writes the entry read to RES; the invariant makes an accepting block's table complete. -/
theorem tableReadGivesTheEntry : Obligations.TableReadGivesTheEntry := by
  intro a b i s
  refine ⟨decode_tread_byte i, fun h => rejectsReserved_of_fA8 (decode_tread_word a b) h s,
    s.writeRes (readEntry s.table i), exec_tread i s, table_getElem?_eq s.table i, onlyResWritten_writeRes s _,
    fun hinv ha => ?_, fun hbuilt => hbuilt i, ?_, ?_⟩
  · obtain ⟨_, _, hready⟩ := s.accepting_iff.mp ha
    exact hinv.tableBuilt hready i
  · rintro hbuilt rfl
    exact (hbuilt 1#8).trans tableEntry_1
  · rintro hbuilt rfl
    exact (hbuilt 0#8).trans tableEntry_0

end Sys2Proof.Proofs
end

section
/-! PROOFS. Commands presented one after another, and among them a message's: what they leave of CRC and RES
(42_checksum.md R95, R97, R99). -/

namespace Sys2Proof.Machine

/-! ## Runs of encoded commands -/

/-- What accepted commands leave, each given by its word. -/
def afterCommands (commands : List Instr) (s : State) : State := afterWords (commands.map encode) s

@[simp] theorem afterCommands_nil (s : State) : afterCommands [] s = s := rfl

@[simp] theorem afterCommands_cons (i : Instr) (commands : List Instr) (s : State) :
    afterCommands (i :: commands) s = afterCommands commands (afterWord (encode i) s) := rfl

theorem afterCommands_append (is js : List Instr) (s : State) :
    afterCommands (is ++ js) s = afterCommands js (afterCommands is s) := by
  simp only [afterCommands, afterWords, List.map_append, List.foldl_append]

/-- A block that accepts runs the commands presented to it, one a step. -/
theorem run_presentAll {commands : List Instr} {s : State} {rest : List HostInput} (ha : s.accepting = true)
    (hp : s.presented = none) (hs : s.script = presentAll commands ++ rest) :
    Host.Core.run core commands.length s = .next ((afterCommands commands s).setScript rest) := by
  have hwords : presentAll commands = (commands.map encode).map .present := List.map_map.symm
  rw [← List.length_map encode]
  exact run_words (commands.map encode) ha hp (hs.trans (congrArg (· ++ rest) hwords))

/-- A command's word does what the command does. -/
theorem afterWord_encode {i : Instr} {s t : State} (h : exec i s = .next t) : afterWord (encode i) s = t := by
  have := afterWord_of_execute (decode_encode i) s
  rwa [h, Host.Outcome.next.injEq, eq_comm] at this

/-! ## A message's commands (42_checksum.md R97) -/

/-- On a built table the CRCBYTEs of a message run the checksum loop from CRC as it stands. -/
theorem afterCommands_crcbytes {s : State} (h : s.TableBuilt) (m : List Byte) :
    afterCommands (m.map .crcbyte) s = s.writeCrc (m.foldl checksumStep s.crc) := by
  induction m generalizing s with
  | nil => rfl
  | cons c m ih =>
    have hbyte : afterWord (encode (.crcbyte c)) s = s.writeCrc (checksumStep s.crc c) := by
      rw [afterWord_encode (exec_crcbyte c s), crcUpdate_of_built h]
    have hbuilt : (s.writeCrc (checksumStep s.crc c)).TableBuilt := h
    rw [List.map_cons, afterCommands_cons, hbyte, ih hbuilt]
    rfl

theorem afterCommands_message {s : State} (h : s.TableBuilt) (m : List Byte) :
    afterCommands (messageCommands m) s = (s.writeCrc (checksum m)).writeRes (checksum m) := by
  have hbuilt : (s.writeCrc 0xFFFFFFFF#32).TableBuilt := h
  rw [messageCommands, afterCommands_cons, afterWord_encode (exec_crcinit s), afterCommands_append,
    afterCommands_crcbytes hbuilt, afterCommands_cons, afterWord_encode (exec_crcread _)]
  rfl

theorem messageCommands_length (m : List Byte) : (messageCommands m).length = m.length + 2 := by
  simp [messageCommands]

/-- A message presented to an accepting block with a built table leaves its checksum in CRC and RES, and nothing else
changes. -/
theorem run_message {m : List Byte} {s : State} {rest : List HostInput} (ha : s.accepting = true) (ht : s.TableBuilt)
    (hp : s.presented = none) (hs : s.script = presentAll (messageCommands m) ++ rest) :
    Host.Core.run core (m.length + 2) s
      = .next (((s.writeCrc (checksum m)).writeRes (checksum m)).setScript rest) := by
  rw [← messageCommands_length, run_presentAll ha hp hs, afterCommands_message ht]

/-! ## CRCREAD before any byte (42_checksum.md R95) -/

/-- A command that is no CRCBYTE leaves all-ones in CRC where it finds it. -/
theorem afterWord_keeps_ones {i : Instr} (hi : ∀ c, i ≠ .crcbyte c) {s : State} (h : s.crc = 0xFFFFFFFF#32) :
    (afterWord (encode i) s).crc = 0xFFFFFFFF#32 := by
  by_contra hne
  obtain rfl | ⟨c, rfl⟩ := exec_crc_ne (afterWord_of_execute (decode_encode i) s) (h.symm ▸ hne)
  · exact hne (by rw [afterWord_encode (exec_crcinit s), State.writeCrc_crc])
  · exact hi c rfl

theorem afterCommands_keeps_ones {commands : List Instr} (hno : ∀ c, Instr.crcbyte c ∉ commands) {s : State}
    (h : s.crc = 0xFFFFFFFF#32) : (afterCommands commands s).crc = 0xFFFFFFFF#32 := by
  induction commands generalizing s with
  | nil => exact h
  | cons i commands ih =>
    have hi : ∀ c, i ≠ .crcbyte c := fun c hc => hno c (hc ▸ List.mem_cons_self)
    exact ih (fun c hc => hno c (List.mem_cons_of_mem i hc)) (afterWord_keeps_ones hi h)

theorem afterCommands_crcread_res (commands : List Instr) (s : State) :
    (afterCommands (commands ++ [.crcread]) s).res = (afterCommands commands s).crc := by
  rw [afterCommands_append, afterCommands_cons, afterWord_encode (exec_crcread _)]
  rfl

/-- Commands and a CRCREAD, presented to an accepting block, end with RES = the CRC that the commands leave. -/
theorem run_then_crcread {commands : List Instr} {s : State} (ha : s.accepting = true) (hp : s.presented = none)
    (hs : s.script = presentAll (commands ++ [.crcread])) :
    ∃ t, Host.Core.run core (commands.length + 1) s = .next t ∧ t.res = (afterCommands commands s).crc := by
  have hrun := run_presentAll ha hp (hs.trans (List.append_nil _).symm)
  rw [List.length_append] at hrun
  exact ⟨_, hrun, afterCommands_crcread_res commands s⟩

/-- The message 01015678 of the spec's example, in ASCII (42_checksum.md R95). -/
theorem checksum_example :
    checksum [0x30#8, 0x31#8, 0x30#8, 0x31#8, 0x35#8, 0x36#8, 0x37#8, 0x38#8] = 0xD629C28D#32 := by decide

end Sys2Proof.Machine

namespace Sys2Proof.Proofs

open Sys2Proof.Machine

/-- Settles O23: the commands' run is `run_message`; CRCINIT gives the loop its start, each CRCBYTE one iteration. -/
theorem messageCommandsLeaveItsChecksum : Obligations.MessageCommandsLeaveItsChecksum := by
  refine ⟨rfl, fun m c => ?_, fun m s rest ha ht hp hs => ?_⟩
  · rw [checksum_append, checksumStep, crcIndex, lowByteOf_eq_setWidth]
    rfl
  · exact ⟨_, run_message ha ht hp hs, rfl, rfl, rfl, rfl, rfl, hp, rfl, rfl, rfl⟩

/-- Settles O21: CRCREAD writes CRC to RES alone, so CRC goes on as it was; with no CRCBYTE before it, it finds the
all-ones of CRCINIT or of the start. -/
theorem crcReadGivesTheCrcAsItStands : Obligations.CrcReadGivesTheCrcAsItStands := by
  refine ⟨fun a b s => ?_, fun s commands hno ha hp => ⟨fun hs => ?_, fun hcrc hs => ?_⟩, fun s ha ht hp hs => ?_⟩
  · exact ⟨decode_encode .crcread, fun h => rejectsReserved_of_fN (decode_crcread_word a b) h s, s.writeRes s.crc,
      exec_crcread s, rfl, onlyResWritten_writeRes s _, fun c => ⟨_, _, exec_crcbyte c s, exec_crcbyte c _, rfl⟩⟩
  · obtain ⟨t, hrun, hres⟩ := run_then_crcread ha hp hs
    have hinit : (afterWord (encode .crcinit) s).crc = 0xFFFFFFFF#32 := by
      rw [afterWord_encode (exec_crcinit s), State.writeCrc_crc]
    exact ⟨t, hrun, hres.trans (afterCommands_keeps_ones hno hinit)⟩
  · obtain ⟨t, hrun, hres⟩ := run_then_crcread ha hp hs
    exact ⟨t, hrun, hres.trans (afterCommands_keeps_ones hno hcrc)⟩
  · exact ⟨_, run_message ha ht hp (hs.trans (List.append_nil _).symm), checksum_example⟩

/-- Settles O25: both runs end with RES at the message's checksum, which no state enters. -/
theorem checksumFacts : Obligations.ChecksumFacts := by
  refine ⟨rfl, ⟨0#8, 1#8, by decide⟩, fun m s₁ s₂ ha₁ ha₂ ht₁ ht₂ hp₁ hp₂ hs₁ hs₂ => ?_, index_reads_low_bits⟩
  exact ⟨_, _, run_message ha₁ ht₁ hp₁ (hs₁.trans (List.append_nil _).symm),
    run_message ha₂ ht₂ hp₂ (hs₂.trans (List.append_nil _).symm), rfl⟩

end Sys2Proof.Proofs
end

section
/-! PROOFS. NOP, and what no command writes (44_control.md R110 to R113). -/

namespace Sys2Proof.Machine

/-- When the host does nothing more, the machine's step is the block's own. -/
theorem step_of_script_nil {s : State} (h : s.script = []) : step s = blockStep s := by rw [step, takeStep, h]

/-- While initialisation goes on with the host silent, a step is the init sequencer's: a word presented is held, whatever
it is (44_control.md R110; 70_reset_and_hazards.md R170). -/
theorem step_of_not_ready {s : State} (h : s.Inv) (hr : s.ready = false) (hl : s.resetLine = false)
    (hs : s.script = []) : step s = .next (initStep s) := by
  rw [step_of_script_nil hs, blockStep_of_init hl (h.bidx_lt hr)]

end Sys2Proof.Machine

namespace Sys2Proof.Proofs

open Sys2Proof.Machine

/-- Settles O27: NOP's word is its encoding and its effect the state it runs in; held, it sees an init step, which keeps
the interface. -/
theorem nopChangesNothing : Obligations.NopChangesNothing := by
  intro a b s
  refine ⟨decode_encode .nop, exec_nop s, fun h => rejectsReserved_of_fN (decode_nop_word a b) h s,
    fun hinv hr hl hp hs => ⟨initStep s, step_of_not_ready hinv hr hl hs, ?_⟩⟩
  rw [initStep_presented, hp]

/-- Settles O28: a command writes RES alone or CRC alone (`exec_writes`), so one of the two is kept and so is the rest. -/
theorem noCommandWritesStatusTableOrBidx : Obligations.NoCommandWritesStatusTableOrBidx := by
  intro i s
  obtain ⟨v, hexec⟩ | ⟨v, hexec⟩ := exec_writes i s
  · obtain ⟨hcrc, hstatus, htable, hbidx, hinterface⟩ := onlyResWritten_writeRes s v
    exact ⟨_, hexec, hstatus, htable, hbidx, hinterface, .inl hcrc⟩
  · obtain ⟨hres, hstatus, htable, hbidx, hinterface⟩ := onlyCrcWritten_writeCrc s v
    exact ⟨_, hexec, hstatus, htable, hbidx, hinterface, .inr hres⟩

end Sys2Proof.Proofs
end

section
/-! PROOFS. The host's side (48_host_composition.md R120 to R129): decimal digits, the preconditions, the request code,
the final transform, and the host's session on the block. -/

namespace Sys2Proof.Machine

/-! ## Decimal digits (48_host_composition.md R121, R122, R126) -/

theorem isAsciiDigit_iff (c : Char) : isAsciiDigit c = true ↔ 48 ≤ c.toNat ∧ c.toNat ≤ 57 := by
  simp only [isAsciiDigit, Bool.and_eq_true, decide_eq_true_eq]

@[simp] theorem digitChar_toNat (n : Nat) : (digitChar n).toNat = 48 + n % 10 := by
  have hvalid : (48 + n % 10).isValidChar := .inl (by omega)
  rw [digitChar, Char.ofNat, dif_pos hvalid]
  exact UInt32.toNat_ofNatLT ..

@[simp] theorem isAsciiDigit_digitChar (n : Nat) : isAsciiDigit (digitChar n) = true := by
  rw [isAsciiDigit_iff, digitChar_toNat]
  omega

theorem twoDigits_all_isAsciiDigit (n : Nat) : (twoDigits n).all isAsciiDigit = true := by simp [twoDigits]

theorem fiveDigits_all_isAsciiDigit (n : Nat) : (fiveDigits n).all isAsciiDigit = true := by simp [fiveDigits]

/-- The value of the two digits of a number below 100, as an integer (48_host_composition.md R122). -/
theorem twoDigits_value {n : Nat} (h : n < 100) :
    (((digitChar (n / 10)).toNat : Int) - 48) * 10 + ((digitChar n).toNat - 48) = n := by
  rw [digitChar_toNat, digitChar_toNat]
  omega

/-- The five digits of a number below 100000, read most significant first, are the number (48_host_composition.md
R126). -/
theorem fiveDigits_value {n : Nat} (h : n < 100000) :
    (fiveDigits n).foldl (fun v d => 10 * v + (d.toNat - 48)) 0 = n := by
  simp only [fiveDigits, List.foldl_cons, List.foldl_nil, digitChar_toNat, Nat.add_sub_cancel_left]
  omega

/-! ## The preconditions and the request code (48_host_composition.md R121, R122, R127) -/

theorem hostPreconditions_iff (month day : Int) (identifier : List Char) :
    hostPreconditions month day identifier = true ↔
      1 ≤ month ∧ month ≤ 12 ∧ 1 ≤ day ∧ day ≤ 31 ∧ identifier.length = 8 ∧
        ∀ c ∈ identifier, 48 ≤ c.toNat ∧ c.toNat ≤ 57 := by
  simp only [hostPreconditions, Bool.and_eq_true, decide_eq_true_eq, List.all_eq_true, isAsciiDigit_iff, and_assoc]

theorem identifier_length {month day : Int} {identifier : List Char}
    (h : hostPreconditions month day identifier = true) : identifier.length = 8 := by
  obtain ⟨-, -, -, -, hlength, -⟩ := (hostPreconditions_iff ..).mp h
  exact hlength

theorem identifier_all_isAsciiDigit {month day : Int} {identifier : List Char}
    (h : hostPreconditions month day identifier = true) : identifier.all isAsciiDigit = true := by
  obtain ⟨-, -, -, -, -, hdigits⟩ := (hostPreconditions_iff ..).mp h
  exact List.all_eq_true.mpr fun c hc => (isAsciiDigit_iff c).mpr (hdigits c hc)

/-- Of an identifier of 8 characters the last four are those after the first four. -/
theorem requestCode_eq (month day : Int) {identifier : List Char} (h : identifier.length = 8) :
    requestCode month day identifier = twoDigits month.toNat ++ twoDigits day.toNat ++ identifier.drop 4 := by
  rw [requestCode, h]

theorem requestCode_length (month day : Int) {identifier : List Char} (h : identifier.length = 8) :
    (requestCode month day identifier).length = 8 := by
  simp [requestCode_eq month day h, twoDigits, h]

theorem requestCode_all_isAsciiDigit (month day : Int) {identifier : List Char}
    (h : identifier.all isAsciiDigit = true) : (requestCode month day identifier).all isAsciiDigit = true := by
  have hlast : (identifier.drop (identifier.length - 4)).all isAsciiDigit = true :=
    List.all_eq_true.mpr fun c hc => List.all_eq_true.mp h c (List.mem_of_mem_drop hc)
  rw [requestCode, List.all_append, List.all_append, twoDigits_all_isAsciiDigit, twoDigits_all_isAsciiDigit, hlast]
  rfl

/-! ## The final transform and the result code (48_host_composition.md R123 to R126) -/

theorem response_exact (c : Word) : response false c = ((bitXor c 0xAAAA#32).toNat + 5313) % 100000 := by
  rw [response, if_neg Bool.false_ne_true]

theorem response_wrapping (c : Word) :
    response true c = ((bitXor c 0xAAAA#32).toNat + 5313) % 2 ^ 32 % 100000 := by
  rw [response, if_pos rfl]

theorem response_lt (wrap : Bool) (c : Word) : response wrap c < 100000 := Nat.mod_lt _ (by decide)

/-- The sum stays below 2^32: both readings are the same (48_host_composition.md R125). -/
theorem response_wrapping_of_lt {c : Word} (h : (bitXor c 0xAAAA#32).toNat < 4294961983) :
    response true c = response false c := by
  rw [response_wrapping, response_exact]
  omega

/-- The sum reaches 2^32: the wrapping reading takes 2^32 off it (48_host_composition.md R125). -/
theorem response_wrapping_of_le {c : Word} (h : 4294961983 ≤ (bitXor c 0xAAAA#32).toNat) :
    response true c = ((bitXor c 0xAAAA#32).toNat + 5313 - 2 ^ 32) % 100000 := by
  have hlt := (bitXor c 0xAAAA#32).isLt
  rw [response_wrapping]
  omega

/-- The readings then differ, 2^32 being no multiple of 100000. -/
theorem response_readings_ne {c : Word} (h : 4294961983 ≤ (bitXor c 0xAAAA#32).toNat) :
    response true c ≠ response false c := by
  rw [response_wrapping_of_le h, response_exact]
  omega

/-- The xor of the final transform changes only bits 15:0 (48_host_composition.md R128). -/
theorem bitXor_0xAAAA_getLsbD_of_le (c : Word) {k : Nat} (h : 16 ≤ k) :
    (bitXor c 0xAAAA#32).getLsbD k = c.getLsbD k := by
  have hzero : (0xAAAA#32).getLsbD k = false :=
    Nat.testBit_lt_two_pow (Nat.lt_of_lt_of_le (by decide : 0xAAAA < 2 ^ 16) (Nat.pow_le_pow_right (by decide) h))
  rw [bitXor_getLsbD, hzero, Bool.xor_false]

theorem resultCode_length (wrap : Bool) (c : Word) : (resultCode wrap c).length = 5 := rfl

theorem resultCode_all_isAsciiDigit (wrap : Bool) (c : Word) : (resultCode wrap c).all isAsciiDigit = true :=
  fiveDigits_all_isAsciiDigit _

theorem computeResetCode_eq (wrap : Bool) {month day : Int} {identifier : List Char}
    (h : hostPreconditions month day identifier = true) :
    computeResetCode wrap month day identifier
      = some (resultCode wrap (checksum ((requestCode month day identifier).map codepoint))) := if_pos h

/-! ## The session on the block (48_host_composition.md R129) -/

theorem hostSession_eq {month day : Int} {identifier : List Char}
    (h : hostPreconditions month day identifier = true) :
    hostSession month day identifier
      = presentAll (messageCommands ((requestCode month day identifier).map codepoint)) := if_pos h

theorem hostReadResult_of_no_error (wrap canShow : Bool) {s : State} (h : errBit s.status = false) :
    hostReadResult wrap canShow s = some (resultCode wrap s.res) := by
  simp [hostReadResult, h]

theorem hostReadResult_discards (wrap : Bool) {s : State} (h : errBit s.status = true) :
    hostReadResult wrap false s = none := by
  simp [hostReadResult, h]

/-- A session on an accepting block with a built table takes ten steps, its eight bytes between CRCINIT and CRCREAD, and
leaves the request code's checksum in RES and STATUS as it was. -/
theorem run_hostSession {month day : Int} {identifier : List Char} {s : State} {rest : List HostInput}
    (hpre : hostPreconditions month day identifier = true) (ha : s.accepting = true) (ht : s.TableBuilt)
    (hp : s.presented = none) (hs : s.script = hostSession month day identifier ++ rest) :
    ∃ t : State, Host.Core.run core 10 s = .next t ∧ t.script = rest ∧ t.status = s.status ∧
      t.res = checksum ((requestCode month day identifier).map codepoint) := by
  have hbytes : ((requestCode month day identifier).map codepoint).length = 8 := by
    rw [List.length_map, requestCode_length month day (identifier_length hpre)]
  have hrun := run_message ha ht hp (hostSession_eq hpre ▸ hs)
  rw [hbytes] at hrun
  exact ⟨_, hrun, rfl, rfl, rfl⟩

end Sys2Proof.Machine

namespace Sys2Proof.Proofs

open Sys2Proof.Machine

/-- Settles O48: the session's run is `run_hostSession`; it leaves STATUS as it was, so the host reads RES, the
checksum, and makes its result code. -/
theorem hostSessionOnTheBlockGivesTheResetCode : Obligations.HostSessionOnTheBlockGivesTheResetCode := by
  refine ⟨fun wrap canShow month day identifier s rest hpre ha ht hp herr hs => ?_,
    fun wrap s herr => hostReadResult_discards wrap herr⟩
  obtain ⟨t, hrun, hscript, hstatus, hres⟩ := run_hostSession hpre ha ht hp hs
  refine ⟨t, hrun, hscript, ?_⟩
  rw [hostReadResult_of_no_error wrap canShow (hstatus ▸ herr), hres, computeResetCode_eq wrap hpre]

/-- Settles O43: the preconditions keep month and day below 100, so their two digits are their value. -/
theorem requestCodeIsMonthDayAndLastFour : Obligations.RequestCodeIsMonthDayAndLastFour := by
  refine ⟨fun month day identifier h => ?_, by decide⟩
  obtain ⟨hm1, hm12, hd1, hd31, hlength, -⟩ := (hostPreconditions_iff ..).mp h
  have hmonth := twoDigits_value (n := month.toNat) (by omega)
  have hday := twoDigits_value (n := day.toNat) (by omega)
  rw [Int.toNat_of_nonneg (by omega)] at hmonth hday
  exact ⟨_, _, _, _, requestCode_eq month day hlength, hmonth, hday, requestCode_length month day hlength,
    requestCode_all_isAsciiDigit month day (identifier_all_isAsciiDigit h)⟩

/-- Settles O44: the wrapping reading differs exactly where the sum reaches 2^32. -/
theorem responseIsTheFinalTransform : Obligations.ResponseIsTheFinalTransform :=
  ⟨fun c => ⟨response_exact c, response_exact c, Nat.le_of_lt_succ (response_lt false c), response_wrapping_of_lt,
    fun h => ⟨response_wrapping_of_le h, response_readings_ne h⟩⟩, by decide, by decide⟩

/-- Settles O45: the response is below 100000, so five digits hold it. -/
theorem resultCodeIsFiveDigitsOfTheResponse : Obligations.ResultCodeIsFiveDigitsOfTheResponse :=
  ⟨fun wrap c => ⟨resultCode_length wrap c, resultCode_all_isAsciiDigit wrap c,
    fiveDigits_value (response_lt wrap c)⟩, by decide⟩

/-- Settles O46: both functions test the preconditions first. -/
theorem failedPreconditionGivesNoResultAndNoCommand : Obligations.FailedPreconditionGivesNoResultAndNoCommand := by
  intro wrap month day identifier hfail
  have hpre : ¬ hostPreconditions month day identifier = true := mt (hostPreconditions_iff ..).mp hfail
  exact ⟨if_neg hpre, if_neg hpre⟩

/-- Settles O47: of the identifier the request code holds only the last four characters; the example's two codes are
evaluated. -/
theorem resetCodeProperties : Obligations.ResetCodeProperties := by
  refine ⟨fun wrap month day id₁ id₂ h₁ h₂ hlast => ?_, fun wrap month day identifier h => ?_,
    fun c k hk => bitXor_0xAAAA_getLsbD_of_le c hk, by decide⟩
  · have hcode : requestCode month day id₁ = requestCode month day id₂ := by
      rw [requestCode_eq month day (identifier_length h₁), requestCode_eq month day (identifier_length h₂), hlast]
    rw [computeResetCode_eq wrap h₁, computeResetCode_eq wrap h₂, hcode]
  · exact ⟨_, computeResetCode_eq wrap h, resultCode_length wrap _, resultCode_all_isAsciiDigit wrap _⟩

end Sys2Proof.Proofs
end

section
/-! PROOFS. The block's one exception, rejection (60_exceptions.md R140 to R147): which words are rejected, what
accepting one does to STATUS, the recorded error over a run, and the step that accepts a word. -/

namespace Sys2Proof

/-! ## Which words are rejected with RESERVED_OPERAND (60_exceptions.md R141) -/

theorem checked_fN_eq_reserved_iff {a b : Word} {i : Instr} :
    checked .fN a b i = .reject .reservedOperand ↔ a ≠ 0#32 ∨ b ≠ 0#32 := by
  rw [checked_fN]
  split <;> simp_all

theorem shiftRight_8_ne_zero_iff (a : Word) : a >>> 8 ≠ 0#32 ↔ 256 ≤ a.toNat := by
  rw [word_ne_zero_iff, BitVec.toNat_ushiftRight, Nat.shiftRight_eq_div_pow]
  omega

theorem checked_fA8_eq_reserved_iff {a b : Word} {i : Instr} :
    checked .fA8 a b i = .reject .reservedOperand ↔ a >>> 8 ≠ 0#32 ∨ b ≠ 0#32 := by
  rw [checked_fA8, shiftRight_8_ne_zero_iff]
  split <;> simp_all

/-- By the opcode: F_AB and the reserved opcodes never give this code, F_N and F_A8 give it by their operand check. -/
theorem decode_commandWord_eq_reserved_iff (op : BitVec 4) (a b : Word) :
    decode (commandWord op a b) = .reject .reservedOperand ↔
      ((op = 0#4 ∨ op = 4#4 ∨ op = 6#4) ∧ (a ≠ 0#32 ∨ b ≠ 0#32)) ∨
      ((op = 5#4 ∨ op = 7#4) ∧ (a >>> 8 ≠ 0#32 ∨ b ≠ 0#32)) := by
  obtain rfl | rfl | rfl | rfl | rfl | rfl | rfl | rfl | h := opcode_cases op
  · rw [decode_nop_word, checked_fN_eq_reserved_iff]; simp
  · rw [decode_xor_word]; simp
  · rw [decode_and_word]; simp
  · rw [decode_shr_word]; simp
  · rw [decode_crcinit_word, checked_fN_eq_reserved_iff]; simp
  · rw [decode_crcbyte_word, checked_fA8_eq_reserved_iff]; simp
  · rw [decode_crcread_word, checked_fN_eq_reserved_iff]; simp
  · rw [decode_tread_word, checked_fA8_eq_reserved_iff]; simp
  · have hne {p : BitVec 4} (hp : p.toNat < 8) : op ≠ p := by rintro rfl; omega
    rw [decode_reserved_word h]
    simp [hne]

end Sys2Proof

namespace Sys2Proof.Machine

/-! ## What a rejection leaves (60_exceptions.md R142) -/

theorem onlyStatusWritten_reject (code : RejectCode) (s : State) : OnlyStatusWritten s (reject code s) :=
  ⟨rfl, rfl, rfl, rfl, rfl, rfl, rfl, rfl⟩

@[simp] theorem accepting_reject (code : RejectCode) (s : State) : (reject code s).accepting = s.accepting := by
  rw [Bool.eq_iff_iff, State.accepting_iff, State.accepting_iff]
  simp

/-- Accepting a rejected word: STATUS alone is written, and of STATUS only ERR and, if no code was recorded, ECODE. -/
theorem acceptWord_rejects {w : CommandWord} {code : RejectCode} (h : decode w = .reject code) (s : State) :
    ∃ t, acceptWord w s = .next t ∧ OnlyStatusWritten s t ∧ errBit t.status = true ∧
      (∀ k, k ≠ 1 → ¬(4 ≤ k ∧ k ≤ 7) → t.status.getLsbD k = s.status.getLsbD k) ∧
      (ecodeField s.status = 0#4 → ecodeField t.status = ecodeOf code) ∧
      (ecodeField s.status ≠ 0#4 → ecodeField t.status = ecodeField s.status) := by
  have hcode := ecodeField_recordRejection s.status code
  exact ⟨reject code s, by rw [acceptWord, h], onlyStatusWritten_reject code s, errBit_recordRejection _ _,
    fun _ => recordRejection_getLsbD _ _, fun h0 => hcode.trans (if_pos h0), fun h0 => hcode.trans (if_neg h0)⟩

/-! ## A recorded error is kept (60_exceptions.md R147) -/

theorem setErr_of_errBit {st : Word} (h : errBit st = true) : setErr st = st := by
  apply BitVec.eq_of_getLsbD_eq
  intro k _
  rw [setErr_getLsbD]
  by_cases hk : k = 1
  · subst hk
    simpa [errBit] using h
  · simp [hk]

/-- An error is recorded: ERR is set and ECODE holds a code (10_state.md R24). -/
structure State.ErrorRecorded (s : State) : Prop where
  err : errBit s.status = true
  code : ecodeField s.status ≠ 0#4

/-- By the invariant ERR alone says that a code is recorded. -/
theorem State.Inv.errorRecorded {s : State} (h : s.Inv) (herr : errBit s.status = true) : s.ErrorRecorded :=
  ⟨herr, by simp [← h.err_iff, herr]⟩

theorem State.ErrorRecorded.reject_eq {s : State} (h : s.ErrorRecorded) (code : RejectCode) : reject code s = s := by
  have hstatus : recordRejection s.status code = s.status := by
    rw [recordRejection, if_neg h.code, setErr_of_errBit h.err]
  rw [reject, hstatus]
  rfl

theorem State.ErrorRecorded.afterWord_status {s : State} (h : s.ErrorRecorded) (w : CommandWord) :
    (afterWord w s).status = s.status := by
  cases hd : decode w with
  | execute i => exact exec_status (afterWord_of_execute hd s)
  | reject code => rw [afterWord_of_reject hd, h.reject_eq]

/-- An init step writes READY alone of STATUS (70_reset_and_hazards.md R162). -/
theorem initStep_keeps_error (s : State) :
    errBit (initStep s).status = errBit s.status ∧ ecodeField (initStep s).status = ecodeField s.status := by
  rw [initStep_status]
  split <;> simp

theorem StepEffect.keeps_error {s t : State} (e : StepEffect s t) (hr : s.script.head? ≠ some .assertReset)
    (h : s.ErrorRecorded) : errBit t.status = errBit s.status ∧ ecodeField t.status = ecodeField s.status := by
  cases e with
  | reset head => exact absurd head hr
  | stays same => simp [same.status]
  | init _ _ same => rw [same.status]; exact initStep_keeps_error s
  | accepts w _ same => simp [same.status, h.afterWord_status w]

/-- What a run without reset keeps once an error is recorded: that it is, with ECODE as `e`. -/
structure ErrorHeld (e : BitVec 4) (s : State) : Prop where
  recorded : s.ErrorRecorded
  noReset : NoReset s.script
  ecode : ecodeField s.status = e

theorem ErrorHeld.kept_by_step {e : BitVec 4} {s : State} (h : ErrorHeld e s) :
    ∃ t, step s = .next t ∧ ErrorHeld e t := by
  obtain ⟨t, ht, hscript, he⟩ := step_effect s
  obtain ⟨herr, hecode⟩ := he.keeps_error h.noReset.head_ne h.recorded
  exact ⟨t, ht, ⟨herr.trans h.recorded.err, hecode ▸ h.recorded.code⟩, h.noReset.of_suffix hscript,
    hecode.trans h.ecode⟩

theorem step_assertReset {s : State} {rest : List HostInput} (h : s.script = .assertReset :: rest) :
    step s = .next (assertReset (s.setScript rest)) := by
  rw [step, takeStep, h]

/-! ## The step that accepts a word (60_exceptions.md R145) -/

/-- A word is accepted next only where the block accepts and no reset is asserted: the one held, or the one presented
in that step. -/
theorem wordAcceptedNext_eq_some {s : State} {w : CommandWord} (h : wordAcceptedNext s = some w) :
    s.accepting = true ∧
      ((s.presented = some w ∧ s.script.head? ≠ some .assertReset) ∨
        (s.presented = none ∧ ∃ rest, s.script = .present w :: rest)) := by
  unfold wordAcceptedNext at h
  split at h
  case isFalse => cases h
  case isTrue ha =>
    refine ⟨ha, ?_⟩
    split at h
    case h_1 => cases h
    case h_2 v hp hreset =>
      cases h
      refine .inl ⟨hp, fun hhead => ?_⟩
      obtain ⟨rest, hs⟩ := List.head?_eq_some_iff.mp hhead
      exact hreset rest hs
    case h_3 v rest hp hs =>
      cases h
      exact .inr ⟨hp, rest, hs⟩
    case h_4 => cases h

/-- While a word is held and no reset is asserted, the host's move leaves the block as it was but for the script. -/
theorem step_of_held {s : State} {w : CommandWord} (hl : s.resetLine = false) (hp : s.presented = some w)
    (hreset : s.script.head? ≠ some .assertReset) : ∃ l, step s = blockStep (s.setScript l) := by
  obtain ⟨_, hs, _⟩ | ⟨_, _, hl', _⟩ | ⟨_, _, _, hl', _⟩ | ⟨_, _, _, _, hp', _⟩ |
    ⟨_, _, _, _, _, _, hstep⟩ | ⟨_, hstep⟩ := step_cases s
  · exact absurd (by rw [hs]; rfl) hreset
  · exact absurd (hl.symm.trans hl') (by decide)
  · exact absurd (hl.symm.trans hl') (by decide)
  · exact absurd (hp.symm.trans hp') (by simp)
  · exact ⟨s.script, hstep⟩
  · exact ⟨s.script.tail, hstep⟩

/-- The step on an accepted word takes its whole effect and consumes it; only the host's script moves on besides. -/
theorem step_accepts {s : State} {w : CommandWord} (h : wordAcceptedNext s = some w) :
    ∃ l, step s = .next (((afterWord w s).setPresented none).setScript l) := by
  obtain ⟨ha, ⟨hp, hreset⟩ | ⟨hp, rest, hs⟩⟩ := wordAcceptedNext_eq_some h
  · obtain ⟨hl, _⟩ := s.accepting_iff.mp ha
    obtain ⟨l, hstep⟩ := step_of_held hl hp hreset
    refine ⟨l, ?_⟩
    rw [hstep, blockStep_accepts (s := s.setScript l) ha hp, afterWord_setPresented, afterWord_setScript]
    rfl
  · have hclear : s.setPresented none = s := by rw [← hp]; rfl
    exact ⟨rest, by rw [step_present ha hp hs, ← afterWord_setPresented, hclear]⟩

end Sys2Proof.Machine

namespace Sys2Proof.Proofs

open Sys2Proof.Machine

/-- Settles O11: each of the effects a step can have is a next state. -/
theorem everyStepAnswersANextState : Obligations.EveryStepAnswersANextState := by
  intro s
  obtain ⟨t, ht, _⟩ := step_effect s
  exact ⟨t, ht⟩

/-- Settles O34: the step that accepts the word leaves its effect, the rejection's, with the interface cleared. -/
theorem rejectionRecordsTheFirstCodeAndNothingElse : Obligations.RejectionRecordsTheFirstCodeAndNothingElse := by
  intro s w code hw hd
  obtain ⟨ha, _⟩ := wordAcceptedNext_eq_some hw
  obtain ⟨l, hstep⟩ := step_accepts hw
  rw [afterWord_of_reject hd] at hstep
  refine ⟨_, hstep, errBit_recordRejection _ _, ?_, fun _ => recordRejection_getLsbD _ _, rfl, rfl, rfl, rfl,
    State.ready_reject code s, rfl, rfl, rfl, (accepting_reject code s).trans ha⟩
  cases code <;> exact ecodeField_recordRejection _ _

/-- Settles O35: the decoder's row of each opcode says which words are rejected, and `acceptWord_rejects` what that
does. -/
theorem whichWordsAreRejectedWithWhichCode : Obligations.WhichWordsAreRejectedWithWhichCode := by
  intro op a b s
  refine ⟨fun h => ?_, decode_commandWord_eq_reserved_iff op a b, fun h => acceptWord_rejects h s⟩
  have hd := decode_reserved_word h a b
  exact ⟨hd, acceptWord_rejects hd s⟩

/-- Settles O36: a run keeps `ErrorHeld`, a further rejection writes what STATUS holds already, and reset writes
zero. -/
theorem errorStaysUntilReset : Obligations.ErrorStaysUntilReset := by
  refine ⟨fun k s hinv herr hno => ?_, fun s w code hinv herr hd => ?_, fun s rest hs => ?_⟩
  · have hstart : ErrorHeld (ecodeField s.status) s := ⟨hinv.errorRecorded herr, hno, rfl⟩
    obtain ⟨t, hrun, ht⟩ := run_keeps (fun _ h => h.kept_by_step) k hstart
    exact ⟨t, hrun, ht.recorded.err, ht.ecode⟩
  · rw [acceptWord_next, afterWord_of_reject hd, (hinv.errorRecorded herr).reject_eq]
  · refine ⟨_, step_assertReset hs, ?_⟩
    rw [assertReset_status]
    decide

end Sys2Proof.Proofs
end

section
/-! PROOFS. Initialisation (70_reset_and_hazards.md R162 to R164): the init sequencer's steps as iterates of `initStep`,
the host's move before a step of a released block, and the run of init steps, said once (`run_init_steps`). -/

namespace Sys2Proof.Machine

/-! ## One init step (70_reset_and_hazards.md R162) -/

/-- The last init step sets READY. -/
theorem initStep_status_of_last {s : State} (h : s.bidx.toNat = 255) : (initStep s).status = setReady s.status :=
  if_pos ((bidx_succ_eq_256 (by omega)).mpr h)

/-- Every init step but the last leaves STATUS alone. -/
theorem initStep_status_of_not_last {s : State} (hb : s.bidx.toNat < 256) (h : s.bidx.toNat ≠ 255) :
    (initStep s).status = s.status :=
  if_neg ((bidx_succ_eq_256 hb).not.mpr h)

/-- READY is the only bit of STATUS that an init step writes. -/
theorem initStep_status_getLsbD (s : State) {k : Nat} (hk : k ≠ 0) :
    (initStep s).status.getLsbD k = s.status.getLsbD k := by
  rw [initStep_status]
  split
  · simp [setReady_getLsbD, hk]
  · rfl

/-- An init step writes the entry at BIDX with its TableEntry, whatever the table held. -/
theorem readEntry_initStep_same {s : State} {i : Byte} (h : i.toNat = s.bidx.toNat) :
    readEntry (initStep s).table i = tableEntry i := by
  have hi : initIndex s.bidx = i := BitVec.eq_of_toNat_eq (by rw [initIndex_toNat, ← h, Nat.mod_eq_of_lt i.isLt])
  rw [initStep_table, hi, readEntry_writeEntry_same]

theorem readEntry_initStep_other {s : State} (hb : s.bidx.toNat < 256) {i : Byte} (h : i.toNat ≠ s.bidx.toNat) :
    readEntry (initStep s).table i = readEntry s.table i := by
  rw [initStep_table, readEntry_writeEntry_other]
  rw [initIndex_toNat, Nat.mod_eq_of_lt hb]
  exact h.symm

/-! ## The init steps one by one, and collapsed (70_reset_and_hazards.md R163, R164) -/

theorem iterate_initStep_bidx {s : State} {k : Nat} (hk : s.bidx.toNat + k ≤ 256) :
    (initStep^[k] s).bidx.toNat = s.bidx.toNat + k := by
  induction k with
  | zero => rfl
  | succ k ih =>
    have hbidx := ih (by omega)
    rw [Function.iterate_succ_apply', initStep_bidx, bidx_succ_toNat (by omega), hbidx, Nat.add_assoc]

/-- STATUS is as it was until the last init step. -/
theorem iterate_initStep_status {s : State} {k : Nat} (hk : s.bidx.toNat + k < 256) :
    (initStep^[k] s).status = s.status := by
  induction k with
  | zero => rfl
  | succ k ih =>
    have hbidx := iterate_initStep_bidx (s := s) (k := k) (by omega)
    rw [Function.iterate_succ_apply', initStep_status_of_not_last (by omega) (by omega), ih (by omega)]

theorem iterate_initStep_res (k : Nat) (s : State) : (initStep^[k] s).res = s.res := by
  induction k with
  | zero => rfl
  | succ k ih => rw [Function.iterate_succ_apply', initStep_res, ih]

/-- The init sequencer does not look at the interface. -/
theorem iterate_initStep_moved (k : Nat) (s : State) (l : List HostInput) (p : Option CommandWord) :
    initStep^[k] ((s.setScript l).setPresented p) = ((initStep^[k] s).setScript l).setPresented p :=
  Function.Commute.iterate_left (g := fun u : State => (u.setScript l).setPresented p) (fun _ => rfl) k s

/-- At BIDX = 255 one step is all that is left. -/
theorem initStep_eq_initCollapsed {s : State} (hinv : s.Inv) (h : s.bidx.toNat = 255) :
    initStep s = initCollapsed s := by
  have htable : (initStep s).table = builtTable := table_ext fun i => by
    rw [readEntry_initStep (by omega) hinv.built (by have := i.isLt; omega), readEntry_builtTable]
  have hbidx : (initStep s).bidx = 256#9 := (bidx_succ_eq_256 (by omega)).mpr h
  calc initStep s
    _ = ((s.writeTable (initStep s).table).writeBidx (initStep s).bidx).writeStatus (initStep s).status := rfl
    _ = initCollapsed s := by rw [htable, hbidx, initStep_status_of_last h]; rfl

/-- An init step before the last leaves the collapsed initialisation's end as it was. -/
theorem initCollapsed_initStep {s : State} (h : s.bidx.toNat < 255) : initCollapsed (initStep s) = initCollapsed s := by
  have hstatus := initStep_status_of_not_last (s := s) (by omega) (by omega)
  calc initCollapsed (initStep s)
    _ = (initCollapsed s).writeStatus (setReady (initStep s).status) := rfl
    _ = initCollapsed s := by rw [hstatus]; rfl

/-- By induction on the steps that are left, the last of them being `initStep_eq_initCollapsed`. -/
theorem iterate_initStep_eq_initCollapsed {n : Nat} {s : State} (hinv : s.Inv) (hn : s.bidx.toNat + (n + 1) = 256) :
    initStep^[n + 1] s = initCollapsed s := by
  induction n generalizing s with
  | zero => exact initStep_eq_initCollapsed hinv (by omega)
  | succ n ih =>
    have hb : s.bidx.toNat < 256 := by omega
    have hleft : (initStep s).bidx.toNat + (n + 1) = 256 := by rw [initStep_bidx, bidx_succ_toNat hb]; omega
    rw [Function.iterate_succ_apply, ih (hinv.initStep hb) hleft, initCollapsed_initStep (by omega)]

/-- From a state that is not ready, the steps left to 256 are the collapsed initialisation (70_reset_and_hazards.md
R164). -/
theorem iterate_initStep_left {s : State} (hinv : s.Inv) (hr : s.ready = false) :
    initStep^[256 - s.bidx.toNat] s = initCollapsed s := by
  have hb := hinv.bidx_lt hr
  obtain ⟨n, hn⟩ := Nat.exists_eq_add_of_lt hb
  have hleft : 256 - s.bidx.toNat = n + 1 := by omega
  rw [hleft, iterate_initStep_eq_initCollapsed hinv (by omega)]

theorem State.Inv.initCollapsed {s : State} (h : s.Inv) : (initCollapsed s).Inv :=
  State.inv_of_builtTable rfl (reservedBits_setReady _ h.reserved_zero) (by simpa using h.err_iff)
    (by simpa using h.ecode_legal) (Nat.le_refl 256) (by simp)

theorem initCollapsed_tableBuilt (s : State) : (initCollapsed s).TableBuilt := readEntry_builtTable

theorem accepting_initCollapsed {s : State} (h : s.resetLine = false) : (initCollapsed s).accepting = true :=
  (State.accepting_iff _).mpr ⟨h, Nat.le_refl 256, State.ready_initCollapsed s⟩

/-! ## The host's move before a step of a released block (60_exceptions.md R145) -/

/-- How the interface of `s` can have moved on, to the script `l` and the presented word `p`, while no word is accepted
and no reset asserted: the host takes entries of its script, and a word that is held stays held. -/
structure InterfaceMoves (s : State) (l : List HostInput) (p : Option CommandWord) : Prop where
  script : l <:+ s.script
  held : ∀ w, s.presented = some w → p = some w
  silent : s.script = [] → p = s.presented

theorem InterfaceMoves.refl (s : State) : InterfaceMoves s s.script s.presented :=
  ⟨List.suffix_rfl, fun _ h => h, fun _ => rfl⟩

theorem InterfaceMoves.trans {s t : State} {l : List HostInput} {p : Option CommandWord}
    (h₁ : InterfaceMoves s t.script t.presented) (h₂ : InterfaceMoves t l p) : InterfaceMoves s l p where
  script := h₂.script.trans h₁.script
  held := fun w hw => h₂.held w (h₁.held w hw)
  silent := fun hs => (h₂.silent (List.suffix_nil.mp (hs ▸ h₁.script))).trans (h₁.silent hs)

/-- With reset released and not asserted in it, a step is the block's own on a state whose interface has moved on. -/
theorem step_of_released {s : State} (hl : s.resetLine = false) (hreset : s.script.head? ≠ some .assertReset) :
    ∃ l p, InterfaceMoves s l p ∧ step s = blockStep ((s.setScript l).setPresented p) := by
  obtain ⟨_, hs, _⟩ | ⟨_, _, hl', _⟩ | ⟨_, _, _, hl', _⟩ | ⟨w, rest, hs, _, hp, h⟩ | ⟨_, _, _, _, _, _, h⟩ |
    ⟨_, h⟩ := step_cases s
  · exact absurd (by rw [hs]; rfl) hreset
  · exact absurd (hl.symm.trans hl') Bool.false_ne_true
  · exact absurd (hl.symm.trans hl') Bool.false_ne_true
  · exact ⟨rest, some w, ⟨⟨[.present w], hs.symm⟩, by simp [hp], by simp [hs]⟩, h⟩
  · exact ⟨s.script, s.presented, .refl s, h⟩
  · exact ⟨s.script.tail, s.presented, ⟨List.tail_suffix _, fun _ hw => hw, fun _ => rfl⟩, h⟩

/-- While BIDX < 256 a step of a released block is an init step, whatever the host does short of reset. -/
theorem step_init {s : State} (hl : s.resetLine = false) (hb : s.bidx.toNat < 256)
    (hreset : s.script.head? ≠ some .assertReset) :
    ∃ l p, InterfaceMoves s l p ∧ step s = .next (((initStep s).setScript l).setPresented p) := by
  obtain ⟨l, p, hmoves, hstep⟩ := step_of_released hl hreset
  exact ⟨l, p, hmoves, hstep.trans (blockStep_of_init hl hb)⟩

/-! ## Runs of init steps -/

/-- A run that ends by BIDX = 256 is the init sequencer's, whatever the host does short of reset. -/
theorem run_init_steps {k : Nat} {s : State} (hl : s.resetLine = false) (hk : s.bidx.toNat + k ≤ 256)
    (hno : NoReset s.script) :
    ∃ l p, InterfaceMoves s l p ∧
      Host.Core.run core k s = .next (((initStep^[k] s).setScript l).setPresented p) := by
  induction k generalizing s with
  | zero => exact ⟨s.script, s.presented, .refl s, rfl⟩
  | succ k ih =>
    have hb : s.bidx.toNat < 256 := by omega
    obtain ⟨l, p, hmoves, hstep⟩ := step_init hl hb hno.head_ne
    have hleft : (initStep s).bidx.toNat + k ≤ 256 := by rw [initStep_bidx, bidx_succ_toNat hb]; omega
    obtain ⟨l', p', hmoves', hrun⟩ :=
      ih (s := ((initStep s).setScript l).setPresented p) hl hleft (hno.of_suffix hmoves.script)
    refine ⟨l', p', hmoves.trans hmoves', ?_⟩
    rw [run_succ hstep, hrun, iterate_initStep_moved]
    rfl

/-- The steps that are left to 256 end in the collapsed initialisation's state, the interface moved on. -/
theorem run_initialisation {s : State} (hinv : s.Inv) (hr : s.ready = false) (hl : s.resetLine = false)
    (hno : NoReset s.script) :
    ∃ l p, InterfaceMoves s l p ∧
      Host.Core.run core (256 - s.bidx.toNat) s = .next (((initCollapsed s).setScript l).setPresented p) := by
  have hb := hinv.bidx_lt hr
  obtain ⟨l, p, hmoves, hrun⟩ := run_init_steps (k := 256 - s.bidx.toNat) hl (by omega) hno
  exact ⟨l, p, hmoves, by rw [hrun, iterate_initStep_left hinv hr]⟩

end Sys2Proof.Machine

namespace Sys2Proof.Proofs

open Sys2Proof.Machine

/-- Settles O39: before the end STATUS is as it was and BIDX counts; the end is the collapsed initialisation's, from
which on no step writes TABLE or BIDX (`ReadyWithTable`). -/
theorem initialisationEndsWithTheTableBuilt : Obligations.InitialisationEndsWithTheTableBuilt := by
  intro s more hinv hr hl hno
  obtain ⟨l, p, hmoves, hrun⟩ := run_initialisation hinv hr hl hno
  refine ⟨fun k hk => ?_, ?_, ?_⟩
  · obtain ⟨l, p, _, hrun⟩ := run_init_steps (k := k) hl (by omega) hno
    have hstatus := iterate_initStep_status (s := s) (k := k) (by omega)
    exact ⟨_, hrun, (State.ready_congr hstatus).trans hr, iterate_initStep_bidx (by omega)⟩
  · exact ⟨_, hrun, State.ready_initCollapsed s, rfl, initCollapsed_tableBuilt s, rfl, rfl, errBit_setReady s.status⟩
  · have hready : ReadyWithTable builtTable (((initCollapsed s).setScript l).setPresented p) :=
      ⟨hinv.initCollapsed.congr rfl rfl rfl, State.ready_initCollapsed s, hno.of_suffix hmoves.script, rfl⟩
    obtain ⟨t, hmore, ht⟩ := run_keeps (fun _ h => h.kept_by_step) more hready
    have hbidx : t.bidx.toNat = 256 := ht.inv.ready_iff.mp ht.ready
    exact ⟨t, (run_add hrun more).trans hmore, ht.ready, BitVec.eq_of_toNat_eq hbidx, ht.inv.tableBuilt ht.ready⟩

/-- Settles O40: with a silent host the interface stays as it was, and so do RES and STATUS until the last step. -/
theorem initStepsEqualTheCollapsedInitialisation : Obligations.InitStepsEqualTheCollapsedInitialisation := by
  intro s hinv hr hl hs
  have hno : NoReset s.script := by simp [NoReset, hs]
  refine ⟨?_, fun k hk => ?_⟩
  · obtain ⟨l, p, hmoves, hrun⟩ := run_initialisation hinv hr hl hno
    have hscript : l = s.script := (List.suffix_nil.mp (hs ▸ hmoves.script)).trans hs.symm
    rw [hrun, hscript, hmoves.silent hs]
    rfl
  · obtain ⟨l, p, hmoves, hrun⟩ := run_init_steps (k := k) hl (by omega) hno
    exact ⟨_, hrun, iterate_initStep_res k s, iterate_initStep_status (by omega), hmoves.silent hs⟩

/-- Settles O38: a step below 256 is `initStep`, and only there can a step write TABLE or BIDX. -/
theorem initStepBuildsOneEntry : Obligations.InitStepBuildsOneEntry := by
  refine ⟨fun s hl hb hreset => ?_, fun s h hreset => ?_⟩
  · obtain ⟨l, p, _, hstep⟩ := step_init hl hb hreset
    refine ⟨_, hstep, fun i => readEntry_initStep_same, fun i => readEntry_initStep_other hb, bidx_succ_toNat hb,
      fun h => ?_, fun h => State.ready_congr (initStep_status_of_not_last hb h), fun k => initStep_status_getLsbD s,
      rfl, rfl, rfl, rfl⟩
    exact (congrArg readyBit (initStep_status_of_last h)).trans (readyBit_setReady s.status)
  · obtain ⟨t, ht, _, he⟩ := step_effect s
    have hkept : ¬(t.table ≠ s.table ∨ t.bidx ≠ s.bidx) := fun hne => by
      obtain ⟨hl, hb⟩ := he.table_bidx_writer hreset hne
      simp [hl, Nat.not_le.mpr hb] at h
    rw [not_or, not_ne_iff, not_ne_iff] at hkept
    exact ⟨t, ht, hkept⟩

end Sys2Proof.Proofs
end

section
/-! PROOFS. The hold and reset (70_reset_and_hazards.md R160, R166, R170): a word presented while READY = 0 is held
through the init steps, and reset, asserted and released, starts them afresh from any state. -/

namespace Sys2Proof.Machine

/-! ## A word presented or held while READY = 0 (70_reset_and_hazards.md R170) -/

/-- A word presented in an init step is held from it on (70_reset_and_hazards.md R170). -/
theorem step_init_present {s : State} {w : CommandWord} {rest : List HostInput} (hl : s.resetLine = false)
    (hb : s.bidx.toNat < 256) (hp : s.presented = none) (hs : s.script = .present w :: rest) :
    step s = .next (((initStep s).setScript rest).setPresented (some w)) := by
  have hhost : step s = blockStep ((s.setScript rest).setPresented (some w)) := by
    rw [step, takeStep, hs]
    simp [hostPresents, hl, hp]
  exact hhost.trans (blockStep_of_init hl hb)

/-- With nothing presented yet and a word coming, the steps left to 256 end with that word held. -/
theorem run_initialisation_present {s : State} {w : CommandWord} {rest : List HostInput} (hinv : s.Inv)
    (hr : s.ready = false) (hl : s.resetLine = false) (hp : s.presented = none) (hs : s.script = .present w :: rest)
    (hno : NoReset rest) :
    ∃ l, NoReset l ∧
      Host.Core.run core (256 - s.bidx.toNat) s = .next (((initCollapsed s).setScript l).setPresented (some w)) := by
  have hb := hinv.bidx_lt hr
  obtain ⟨n, hn⟩ := Nat.exists_eq_add_of_lt hb
  have hleft : (initStep s).bidx.toNat + n ≤ 256 := by rw [initStep_bidx, bidx_succ_toNat hb]; omega
  obtain ⟨l, p, hmoves, hrun⟩ :=
    run_init_steps (s := ((initStep s).setScript rest).setPresented (some w)) hl hleft hno
  have hcount : 256 - s.bidx.toNat = n + 1 := by omega
  refine ⟨l, hno.of_suffix hmoves.script, ?_⟩
  rw [hcount, run_succ (step_init_present hl hb hp hs), hrun, iterate_initStep_moved, ← Function.iterate_succ_apply,
    iterate_initStep_eq_initCollapsed hinv (by omega), hmoves.held w rfl]
  rfl

/-- What the block is once initialisation from `s` has ended with the word held. -/
structure HeldAtReady (w : CommandWord) (s t : State) : Prop where
  ready : t.ready = true
  presented : t.presented = some w
  crc : t.crc = s.crc
  res : t.res = s.res
  err : errBit t.status = errBit s.status
  ecode : ecodeField t.status = ecodeField s.status
  built : t.TableBuilt
  acceptedNext : wordAcceptedNext t = some w

theorem heldAtReady_initCollapsed {s : State} {l : List HostInput} (w : CommandWord) (hl : s.resetLine = false)
    (hno : NoReset l) : HeldAtReady w s (((initCollapsed s).setScript l).setPresented (some w)) where
  ready := State.ready_initCollapsed s
  presented := rfl
  crc := rfl
  res := rfl
  err := errBit_setReady s.status
  ecode := ecodeField_setReady s.status
  built := initCollapsed_tableBuilt s
  acceptedNext := wordAcceptedNext_of_held (accepting_initCollapsed hl) rfl hno.head_ne

/-- A held word is accepted by the step on the block as it stands, its interface cleared. -/
theorem step_accepts_held {t : State} {w : CommandWord} (hp : t.presented = some w)
    (hw : wordAcceptedNext t = some w) : ∃ l, step t = acceptWord w ((t.setScript l).setPresented none) := by
  obtain ⟨ha, ⟨_, hreset⟩ | ⟨hnone, _⟩⟩ := wordAcceptedNext_eq_some hw
  · obtain ⟨hl, _⟩ := t.accepting_iff.mp ha
    obtain ⟨l, hstep⟩ := step_of_held hl hp hreset
    refine ⟨l, ?_⟩
    rw [hstep, blockStep_of_accepting (s := t.setScript l) ha, acceptPresented, State.setScript_presented, hp]
  · exact absurd (hnone.symm.trans hp) (by simp)

/-! ## Reset asserted and released (70_reset_and_hazards.md R160, R166) -/

/-- The block's own step leaves the reset input alone. -/
theorem blockStep_resetLine (s : State) : ∃ t, blockStep s = .next t ∧ t.resetLine = s.resetLine := by
  obtain ⟨_, h⟩ | ⟨_, _, h⟩ | ⟨_, _, _, h⟩ | ⟨_, _, h⟩ | ⟨w, _, _, h⟩ := blockStep_cases s
  · exact ⟨_, h, rfl⟩
  · exact ⟨_, h, rfl⟩
  · exact ⟨_, h, rfl⟩
  · exact ⟨_, h, rfl⟩
  · exact ⟨_, h, afterWord_resetLine w _⟩

/-- While reset is asserted and the host does not move its input, only the script moves on. -/
theorem step_of_reset_asserted {s : State} (hl : s.resetLine = true)
    (hassert : s.script.head? ≠ some .assertReset) (hrelease : s.script.head? ≠ some .releaseReset) :
    ∃ l, step s = .next (s.setScript l) := by
  obtain ⟨_, hs, _⟩ | ⟨_, hs, _⟩ | ⟨_, rest, _, _, h⟩ | ⟨_, _, _, hl', _⟩ | ⟨_, _, _, _, hl', _⟩ | ⟨_, h⟩ :=
    step_cases s
  · exact absurd (by rw [hs]; rfl) hassert
  · exact absurd (by rw [hs]; rfl) hrelease
  · exact ⟨rest, h⟩
  · exact absurd (hl'.symm.trans hl) Bool.false_ne_true
  · exact absurd (hl'.symm.trans hl) Bool.false_ne_true
  · exact ⟨s.script.tail, h.trans (blockStep_of_reset hl)⟩

theorem step_releaseReset {s : State} {rest : List HostInput} (hl : s.resetLine = true)
    (hs : s.script = .releaseReset :: rest) : step s = .next (releaseReset (s.setScript rest)) := by
  rw [step, takeStep, hs]
  simp [hostReleases, hl]

/-- Where reset is released already, releasing it lets the block take its step (log 7). -/
theorem step_releaseReset_of_released {s : State} {rest : List HostInput} (hl : s.resetLine = false)
    (hs : s.script = .releaseReset :: rest) : step s = blockStep (s.setScript rest) := by
  rw [step, takeStep, hs]
  simp [hostReleases, hl]

/-- The two steps that assert and release reset, from any state whatever. -/
theorem run_reset {s : State} {rest : List HostInput} (hs : s.script = .assertReset :: .releaseReset :: rest) :
    Host.Core.run core 2 s = .next (releaseReset (assertReset (s.setScript rest))) := by
  rw [run_succ (step_assertReset hs), run_succ (step_releaseReset rfl rfl)]
  rfl

end Sys2Proof.Machine

namespace Sys2Proof.Proofs

open Sys2Proof.Machine

/-- Settles O41: reset leaves fixed values in all but TABLE, and initialisation then overwrites TABLE. -/
theorem nothingSurvivesReset : Obligations.NothingSurvivesReset := by
  intro s rest hs hno
  have hnotReady : readyBit 0x00000000#32 = false := by decide
  have hstatus : setReady 0x00000000#32 = 0x00000001#32 := by decide
  obtain ⟨l, p, _, hrun⟩ := run_initialisation (s := releaseReset (assertReset (s.setScript rest)))
    (State.inv_of_status_bidx_zero rfl rfl) hnotReady rfl hno
  exact ⟨_, _, (run_add (run_reset hs) _).trans hrun, rfl, rfl, hstatus, rfl, rfl, readEntry_builtTable⟩

/-- Settles O42: an init step keeps the word that is held, or holds the one presented in it; the run of the steps that
are left ends in `HeldAtReady`. -/
theorem presentedWordIsHeldUntilReady : Obligations.PresentedWordIsHeldUntilReady := by
  refine ⟨fun s w hinv hr hl hp hno => ⟨?_, ?_⟩, fun s w rest hinv hr hl hp hs => ⟨?_, fun hno => ?_⟩,
    fun s rest hs => ⟨_, step_assertReset hs, rfl⟩⟩
  · obtain ⟨l, p, hmoves, hstep⟩ := step_init hl (hinv.bidx_lt hr) hno.head_ne
    obtain ⟨herr, hecode⟩ := initStep_keeps_error s
    exact ⟨_, hstep, hmoves.held w hp, rfl, rfl, herr, hecode⟩
  · obtain ⟨l, p, hmoves, hrun⟩ := run_initialisation hinv hr hl hno
    rw [hmoves.held w hp] at hrun
    have ht := heldAtReady_initCollapsed w hl (hno.of_suffix hmoves.script)
    obtain ⟨l', hstep⟩ := step_accepts_held ht.presented ht.acceptedNext
    exact ⟨_, _, hrun, ht.ready, ht.presented, ht.crc, ht.res, ht.err, ht.ecode, ht.built, ht.acceptedNext, hstep,
      rfl, rfl, rfl, rfl, rfl, rfl⟩
  · obtain ⟨herr, hecode⟩ := initStep_keeps_error s
    exact ⟨_, step_init_present hl (hinv.bidx_lt hr) hp hs, rfl, rfl, rfl, herr, hecode, rfl⟩
  · obtain ⟨l, hnol, hrun⟩ := run_initialisation_present hinv hr hl hp hs hno
    have ht := heldAtReady_initCollapsed w hl hnol
    exact ⟨_, hrun, ht.ready, ht.presented, ht.crc, ht.res, ht.err, ht.ecode, ht.built, ht.acceptedNext⟩

/-- Settles O37: the values are `assertReset`'s; under reset only the script moves; release lets the first init step
come. -/
theorem resetSetsItsValuesAndHoldsTheBlock : Obligations.ResetSetsItsValuesAndHoldsTheBlock := by
  refine ⟨fun s rest hs => ?_, fun s hl hassert hrelease => ?_, fun s rest hs => ?_, fun s hl hb hreset => ?_⟩
  · exact ⟨_, step_assertReset hs, rfl, rfl, rfl, rfl, readEntry_unbuiltTable (s.epoch + 1), rfl, rfl, rfl⟩
  · obtain ⟨l, hstep⟩ := step_of_reset_asserted hl hassert hrelease
    exact ⟨_, hstep, rfl, rfl, rfl, rfl, rfl, hl⟩
  · cases hl : s.resetLine with
    | true => exact ⟨_, step_releaseReset hl hs, rfl⟩
    | false =>
      obtain ⟨t, hblock, ht⟩ := blockStep_resetLine (s.setScript rest)
      exact ⟨t, (step_releaseReset_of_released hl hs).trans hblock, ht.trans hl⟩
  · obtain ⟨l, p, _, hstep⟩ := step_init hl (by rw [hb]; decide) hreset
    refine ⟨_, hstep, ?_, readEntry_initStep_same (by rw [hb]; rfl)⟩
    simp [hb]

end Sys2Proof.Proofs
end

section
/-! PROOFS. Words that write no CRC among those that do (70_reset_and_hazards.md R173): CRC after a list of words depends
on its CRC-writing words alone. -/

namespace Sys2Proof.Machine

theorem writesCrc_eq_true_iff (w : CommandWord) :
    writesCrc w = true ↔ decode w = .execute .crcinit ∨ ∃ c, decode w = .execute (.crcbyte c) := by
  unfold writesCrc
  cases decode w with
  | execute i => cases i <;> simp
  | reject code => simp

theorem writesCrc_encode_iff (i : Instr) : writesCrc (encode i) = true ↔ i = .crcinit ∨ ∃ c, i = .crcbyte c := by
  rw [writesCrc_eq_true_iff, decode_encode]
  simp

theorem writesCrc_of_reject {w : CommandWord} {code : RejectCode} (h : decode w = .reject code) :
    writesCrc w = false := by
  rw [writesCrc, h]

/-- A word that writes no CRC leaves it (10_state.md R21). -/
theorem afterWord_crc_of_not_writesCrc {w : CommandWord} (h : ¬ writesCrc w = true) (s : State) :
    (afterWord w s).crc = s.crc := by
  by_contra hne
  exact h ((writesCrc_eq_true_iff w).mpr (decode_of_afterWord_crc_ne hne))

/-- What a CRC-writing word leaves in CRC depends on CRC and TABLE alone (42_checksum.md R93, R94). -/
theorem afterWord_crc_congr {w : CommandWord} (h : writesCrc w = true) {s₁ s₂ : State} (hcrc : s₁.crc = s₂.crc)
    (htable : s₁.table = s₂.table) : (afterWord w s₁).crc = (afterWord w s₂).crc := by
  obtain hd | ⟨c, hd⟩ := (writesCrc_eq_true_iff w).mp h <;> obtain rfl := decode_eq_execute_iff.mp hd
  · rw [afterWord_encode (exec_crcinit s₁), afterWord_encode (exec_crcinit s₂)]
    rfl
  · rw [afterWord_encode (exec_crcbyte c s₁), afterWord_encode (exec_crcbyte c s₂), State.writeCrc_crc,
      State.writeCrc_crc, hcrc, htable]

/-- By induction over the words: one that writes CRC moves both sides alike, one that does not leaves the left's CRC. -/
theorem afterWords_crc_eq_filter (ws : List CommandWord) {s₁ s₂ : State} (hcrc : s₁.crc = s₂.crc)
    (htable : s₁.table = s₂.table) :
    (afterWords ws s₁).crc = (afterWords (ws.filter writesCrc) s₂).crc := by
  induction ws generalizing s₁ s₂ with
  | nil => exact hcrc
  | cons w ws ih =>
    rw [List.filter_cons, afterWords_cons]
    split
    case isTrue hw => exact ih (afterWord_crc_congr hw hcrc htable) (by simpa using htable)
    case isFalse hw => exact ih ((afterWord_crc_of_not_writesCrc hw s₁).trans hcrc) (by simpa using htable)

end Sys2Proof.Machine

namespace Sys2Proof.Proofs

open Sys2Proof.Machine

/-- Settles O26: both runs are `run_words`, and CRC is compared by `afterWords_crc_eq_filter`. -/
theorem interleavedWordsDoNotChangeTheChecksum : Obligations.InterleavedWordsDoNotChangeTheChecksum := by
  refine ⟨fun ws s₁ s₂ rest₁ rest₂ ha₁ ha₂ hp₁ hp₂ hcrc htable hs₁ hs₂ => ?_, writesCrc_encode_iff,
    fun w ⟨_, hd⟩ => writesCrc_of_reject hd, fun s => ⟨_, exec_crcinit s, rfl⟩,
    fun s rest hs => ⟨_, step_assertReset hs, rfl⟩⟩
  exact ⟨_, _, run_words ws ha₁ hp₁ hs₁, run_words _ ha₂ hp₂ hs₂, afterWords_crc_eq_filter ws hcrc htable⟩

end Sys2Proof.Proofs
end

section
/-! PROOFS. The step of a block that accepts commands is `exec` of the decoded word, whichever way the word came
(10_state.md R28; 70_reset_and_hazards.md R164, R170). -/

namespace Sys2Proof

/-- The decoder of the opcode table on a command word given as its number. -/
theorem decodeTableWord_toNat_eq_some {w : CommandWord} {i : Instr} (h : decodeTableWord 72 w.toNat = some i) :
    decode w = .execute i := by
  have hw : w.toNat % 2 ^ 72 = w.toNat := Nat.mod_eq_of_lt (by have := w.isLt; omega)
  rw [decodeTableWord, hw, if_pos w.isLt, BitVec.ofNat_toNat, BitVec.setWidth_eq] at h
  split at h
  case h_1 j hd => rw [hd, Option.some.inj h]
  case h_2 => cases h

end Sys2Proof

namespace Sys2Proof.Machine

/-! ## The host's move while the block accepts (60_exceptions.md R145) -/

theorem step_idle {s : State} {rest : List HostInput} (hs : s.script = .idle :: rest) :
    step s = blockStep (s.setScript rest) := by
  rw [step, takeStep, hs]

/-- While a word is held the host's next word waits (92 D29; log 5). -/
theorem step_present_of_held {s : State} {w v : CommandWord} {rest : List HostInput} (hl : s.resetLine = false)
    (hp : s.presented = some w) (hs : s.script = .present v :: rest) : step s = blockStep s := by
  rw [step, takeStep, hs]
  simp [hostPresents, hl, hp]

/-! ## The block's step on the word -/

theorem acceptWord_of_execute {w : CommandWord} {i : Instr} (h : decode w = .execute i) (s : State) :
    acceptWord w s = exec i s := by
  rw [acceptWord, h]

theorem blockStep_exec {s : State} {w : CommandWord} {i : Instr} (ha : s.accepting = true)
    (hp : s.presented = some w) (hd : decode w = .execute i) : blockStep s = exec i (s.setPresented none) := by
  rw [blockStep_of_accepting ha, acceptPresented, hp]
  exact acceptWord_of_execute hd _

/-- The word presented in the step is the one that is run. -/
theorem step_exec_of_present {s : State} {w : CommandWord} {i : Instr} {rest : List HostInput}
    (ha : s.accepting = true) (hp : s.presented = none) (hs : s.script = .present w :: rest)
    (hd : decode w = .execute i) : step s = exec i ((s.setScript rest).setPresented none) := by
  have hclear : (s.setScript rest).setPresented none = s.setScript rest := by rw [← hp]; rfl
  rw [step_present ha hp hs, ← afterWord_setScript, hclear, afterWord_of_execute hd]

/-! ## A word placed as the host's next input (log 11) -/

theorem withFetchWord_toNat (s : State) (w : CommandWord) : s.withFetchWord 72 w.toNat = presentNext s w := by
  have hw : w.toNat % 2 ^ 72 = w.toNat := Nat.mod_eq_of_lt (by have := w.isLt; omega)
  rw [State.withFetchWord, hw, BitVec.ofNat_toNat, BitVec.setWidth_eq]

theorem presentNext_of_accepting {s : State} (ha : s.accepting = true) (w : CommandWord) :
    presentNext s w = (s.setPresented none).setScript (.present w :: s.script) := by
  rw [presentNext, if_pos ha]

theorem presentNext_of_not_accepting {s : State} (ha : s.accepting = false) (w : CommandWord) :
    presentNext s w = ((initCollapsed (releaseReset s)).setPresented none).setScript (.present w :: s.script) := by
  simp [presentNext, ha]

/-- On a block that accepts, the placed word is run with the interface clear and the script back as it was. -/
theorem step_placed {s : State} {w : CommandWord} {i : Instr} (ha : s.accepting = true) (hd : decode w = .execute i) :
    step ((s.setPresented none).setScript (.present w :: s.script)) = exec i (s.setPresented none) :=
  step_exec_of_present ha rfl rfl hd

end Sys2Proof.Machine

namespace Sys2Proof.Proofs

open Sys2Proof.Machine

/-- Settles O9, by the host's input: each leaves the block's step on a state that presents the word. -/
theorem stepRunsTheDecodedCommand : Obligations.StepRunsTheDecodedCommand := by
  intro s w v i rest ha hd
  obtain ⟨hl, _⟩ := s.accepting_iff.mp ha
  refine ⟨fun hp hs => step_exec_of_present ha hp hs hd, fun hp hs => ?_, ?_, fun hp hs => ?_⟩
  · rw [step_of_script_nil hs, blockStep_exec ha hp hd]
  · rintro hp (hs | hs)
    · exact (step_idle hs).trans (blockStep_exec (s := s.setScript rest) ha hp hd)
    · exact (step_releaseReset_of_released hl hs).trans (blockStep_exec (s := s.setScript rest) ha hp hd)
  · rw [step_present_of_held hl hp hs, blockStep_exec ha hp hd]

/-- Settles O10, by whether the block accepts already: where it does not, the collapsed initialisation makes it accept
and builds the table. -/
theorem fetchWordIsRunByTheNextStep : Obligations.FetchWordIsRunByTheNextStep := by
  intro s w i hi
  have hd := decodeTableWord_toNat_eq_some hi
  rw [withFetchWord_toNat]
  cases ha : s.accepting with
  | true =>
    rw [presentNext_of_accepting ha]
    exact ⟨s.setPresented none, step_placed ha hd, ha, rfl, rfl, rfl, rfl, fun _ => rfl, by simp⟩
  | false =>
    have haccepts : (initCollapsed (releaseReset s)).accepting = true := accepting_initCollapsed rfl
    rw [presentNext_of_not_accepting ha]
    exact ⟨(initCollapsed (releaseReset s)).setPresented none, step_placed haccepts hd, haccepts, rfl, rfl, rfl, rfl,
      by simp, fun _ => initCollapsed_tableBuilt (releaseReset s)⟩

end Sys2Proof.Proofs
end

section
/-! PROOFS. The words written out from the encoding rows (30_encoding.md R64, R68; 95_test_vectors.md sections 3 to 5):
an accepted one is its command's encoding, a rejected one falls to the opcode check or to its format's operand check. -/

namespace Sys2Proof.Proofs

/-- Settles O7: the first five words are the encodings of their commands; 0x135 is no byte, and opcode 15 is
reserved. -/
theorem writtenOutWordsDecode : Obligations.WrittenOutWordsDecode := by
  refine ⟨decode_encode .nop, decode_encode (.xor 0xEDB88320#32 0x7FFFFFFF#32),
    decode_encode (.shr 0x12345678#32 4#32), decode_encode (.crcbyte 0x30#8), decode_encode (.tread 0x80#8), ?_, ?_⟩
  · have hcheck : checked .fA8 0x135#32 0#32 (.crcbyte (lowByteOf 0x135#32)) = .reject .reservedOperand := by
      rw [checked_fA8, if_pos (Or.inl (by decide))]
    exact (decode_crcbyte_word 0x135#32 0#32).trans hcheck
  · exact decode_reserved_word (op := 0xF#4) (by decide) 0xFFFFFFFF#32 0xFFFFFFFF#32

end Sys2Proof.Proofs
end
